-- ==== Sys2Proof/Word.lean ====
section
/-! DEFINITION. The word types of the block: a byte of MEM, a 32-bit register, a 64-bit register (spec 10_state.md R21, 00_scope.md R7). -/

namespace Sys2Proof

/-- One byte of MEM; also one code unit of a symbol text (10_state.md R47). -/
abbrev Byte := BitVec 8

/-- A 32-bit register: CMD, STATUS, SRC, LEN, DST, CAP, OFF (10_state.md R21). -/
abbrev Word := BitVec 32

/-- A 64-bit register: VAL, RES (10_state.md R21, R29, R30). -/
abbrev DWord := BitVec 64

end Sys2Proof
end

