-- ==== Sys2Proof/Config.lean ====
section
/-! DEFINITION. What is fixed for the machine: the three codecs, the digit orders, the instance's MEM_SIZE at reset, and the one free value. -/

namespace Sys2Proof

/-- The three codecs; no other exists (00_scope.md R2, 10_state.md R40). -/
inductive Codec where
  | base10
  | base45
  | base94
deriving DecidableEq, Repr

/-- The two digit orders of 42_radix.md R120. -/
inductive DigitOrder where
  | msdFirst
  | lsdFirst
deriving DecidableEq, Repr

/-- MEM_SIZE of the instance that `State.reset` describes. The spec leaves it OPEN (00_scope.md R7); every state
carries its own MEM_SIZE, and this value is used by `State.reset` alone. DESIGN CHOICE, unsafe (log 1): the 4096 of the
spec's test vectors. -/
def Config.memSize : Nat := 4096

/-- FREE VALUE (log 3): the byte a host read returns for an address that nothing has written since reset
(70_reset_and_hazards.md R271: "nothing says which, nor that two reads return the same one"; 93_implementation_defined.md
S1: `any value`). It is applied to a counter that every such read advances. -/
opaque Config.freeByte : Nat → Byte

end Sys2Proof
end

