-- ==== Sys2Proof/Syntax.lean ====
section
/-! DEFINITION. The commands of the block, one constructor per row of spec/opcode_table.json (30_encoding.md R87). -/

namespace Sys2Proof

/-- The 23 commands. A command word has no field beside OP and CODEC, so no constructor has an argument: every operand
is a fixed register (30_encoding.md R80, R83). -/
inductive Instr where
  | read56
  | write56
  | radixencB10
  | radixencB45
  | radixencB94
  | radixdecB10
  | radixdecB45
  | radixdecB94
  | encodeB10
  | decodeB10
  | validateB10
  | symlenB10
  | bytelenB10
  | encodeB45
  | decodeB45
  | validateB45
  | symlenB45
  | bytelenB45
  | encodeB94
  | decodeB94
  | validateB94
  | symlenB94
  | bytelenB94
deriving DecidableEq, Repr

end Sys2Proof
end

