-- ==== Sys2Proof/HostOp.lean ====
section
/-! DEFINITION. What the host can do to the block: the interactions of 10_state.md R50, as data, and the nine register names of R21. -/

namespace Sys2Proof

/-- The nine registers (10_state.md R21). -/
inductive RegName where
  | cmd
  | status
  | src
  | len
  | dst
  | cap
  | off
  | val
  | res
deriving DecidableEq, Repr

/-- One interaction of the host (10_state.md R50). Numbers are plain naturals, so that the accesses the spec says to
refuse can be written down: a register number outside 0..8, a value wider than the register, an address past MEM, a code
unit above 255 (93_implementation_defined.md S6, S7, S8, S14). -/
inductive HostOp where
  /-- HostWriteReg(r, v); for r = 0 it starts the command that the word v names. -/
  | writeReg (r v : Nat)
  /-- HostReadReg(r). -/
  | readReg (r : Nat)
  /-- HostWriteMem(a, b). -/
  | writeMem (a b : Nat)
  /-- HostReadMem(a). -/
  | readMem (a : Nat)
  /-- Reset (70_reset_and_hazards.md R270). -/
  | reset
deriving DecidableEq, Repr

end Sys2Proof
end

