-- ==== Sys2Proof/WellFormed.lean ====
section
/-! DEFINITION. Well-formedness: which 32-bit words are legal command words (30_encoding.md R84), and which host operations lie inside the block's interface (10_state.md R31, R50). Written in arithmetic on numbers, apart from the decoder's bit fields. -/

namespace Sys2Proof

/-- The nine assigned operation codes (30_encoding.md R81). -/
def WellFormed.assignedOps : List Nat := [0x01, 0x02, 0x10, 0x11, 0x20, 0x21, 0x22, 0x23, 0x24]

/-- R84 (a): the reserved bits 31:10 are 0. -/
def WellFormed.reservedClear (w : Word) : Bool := w.toNat / 2 ^ 10 == 0

/-- R84 (b): OP is one of the nine values of R81. -/
def WellFormed.opAssigned (w : Word) : Bool := WellFormed.assignedOps.contains (w.toNat % 2 ^ 8)

/-- R84 (c): CODEC is not 0b11. -/
def WellFormed.codecAssigned (w : Word) : Bool := w.toNat / 2 ^ 8 % 4 != 3

/-- R84 (d): READ56 and WRITE56 have CODEC 0b00. -/
def WellFormed.helperCodecClear (w : Word) : Bool :=
  !([0x01, 0x02].contains (w.toNat % 2 ^ 8)) || w.toNat / 2 ^ 8 % 4 == 0

/-- A legal command word: none of the four conditions of 30_encoding.md R84 holds. -/
def WellFormed.legalWord (w : Word) : Bool :=
  WellFormed.reservedClear w && WellFormed.opAssigned w && WellFormed.codecAssigned w && WellFormed.helperCodecClear w

/-- The width of the register of that number, none for a number outside 0..8 (10_state.md R21). -/
def WellFormed.regWidth : Nat → Option Nat
  | 0 | 1 | 2 | 3 | 4 | 5 | 6 => some 32
  | 7 | 8 => some 64
  | _ => none

/-- The host operations inside the block's interface: the others are refused (10_state.md R31, R50;
93_implementation_defined.md S6, S7, S8, S14). -/
def HostOp.wf (memSize : Nat) : HostOp → Bool
  | .writeReg r v =>
    match WellFormed.regWidth r with
    | some width => decide (v < 2 ^ width)
    | none => false
  | .readReg r => (WellFormed.regWidth r).isSome
  | .writeMem a b => decide (a < memSize) && decide (b < 256)
  | .readMem a => decide (a < memSize)
  | .reset => true

end Sys2Proof
end

