-- ==== Sys2Proof/Decode.lean ====
section
/-! DEFINITION. The decoder of a CMD word, total over all 32-bit words and rejecting by name (30_encoding.md R80 to R87), the encoder, the instruction names of R87, and the host's entry point decodeTableWord. -/

namespace Sys2Proof

/-- Why a CMD word is illegal, in the order of the checks of 30_encoding.md R85; each raises `IllegalCommand`. -/
inductive Decode.Reject where
  /-- R84 (a): RSVD = CMD[31:10] is not 0. -/
  | reservedBits
  /-- R84 (b): OP is not one of the nine values of R81. -/
  | unassignedOp
  /-- R84 (c): CODEC is 0b11. -/
  | reservedCodec
  /-- R84 (d): READ56 or WRITE56 with CODEC not 0b00. -/
  | helperWithCodec
deriving DecidableEq, Repr

/-- The nine operations of 30_encoding.md R81. -/
inductive Decode.Op where
  | read56
  | write56
  | radixenc
  | radixdec
  | encode
  | decode
  | validate
  | symlen
  | bytelen
deriving DecidableEq, Repr

/-- OP = CMD[7:0] (30_encoding.md R80). -/
def Decode.opField (w : Word) : BitVec 8 := w.extractLsb' 0 8

/-- CODEC = CMD[9:8] (30_encoding.md R80). -/
def Decode.codecField (w : Word) : BitVec 2 := w.extractLsb' 8 2

/-- RSVD = CMD[31:10] (30_encoding.md R80). -/
def Decode.rsvdField (w : Word) : BitVec 22 := w.extractLsb' 10 22

/-- The operation code table of 30_encoding.md R81. -/
def Decode.opOf (b : BitVec 8) : Option Decode.Op :=
  match b.toNat with
  | 0x01 => some .read56
  | 0x02 => some .write56
  | 0x10 => some .radixenc
  | 0x11 => some .radixdec
  | 0x20 => some .encode
  | 0x21 => some .decode
  | 0x22 => some .validate
  | 0x23 => some .symlen
  | 0x24 => some .bytelen
  | _ => none

/-- The codec selector values of 30_encoding.md R82. -/
def Decode.codecOf (b : BitVec 2) : Option Codec :=
  match b.toNat with
  | 0 => some .base10
  | 1 => some .base45
  | 2 => some .base94
  | _ => none

/-- The row of the opcode table that an operation and a codec name (30_encoding.md R85, R87). -/
def Decode.row : Decode.Op → Codec → Except Decode.Reject Instr
  | .read56, .base10 => .ok .read56
  | .read56, .base45 => .error .helperWithCodec
  | .read56, .base94 => .error .helperWithCodec
  | .write56, .base10 => .ok .write56
  | .write56, .base45 => .error .helperWithCodec
  | .write56, .base94 => .error .helperWithCodec
  | .radixenc, .base10 => .ok .radixencB10
  | .radixenc, .base45 => .ok .radixencB45
  | .radixenc, .base94 => .ok .radixencB94
  | .radixdec, .base10 => .ok .radixdecB10
  | .radixdec, .base45 => .ok .radixdecB45
  | .radixdec, .base94 => .ok .radixdecB94
  | .encode, .base10 => .ok .encodeB10
  | .encode, .base45 => .ok .encodeB45
  | .encode, .base94 => .ok .encodeB94
  | .decode, .base10 => .ok .decodeB10
  | .decode, .base45 => .ok .decodeB45
  | .decode, .base94 => .ok .decodeB94
  | .validate, .base10 => .ok .validateB10
  | .validate, .base45 => .ok .validateB45
  | .validate, .base94 => .ok .validateB94
  | .symlen, .base10 => .ok .symlenB10
  | .symlen, .base45 => .ok .symlenB45
  | .symlen, .base94 => .ok .symlenB94
  | .bytelen, .base10 => .ok .bytelenB10
  | .bytelen, .base45 => .ok .bytelenB45
  | .bytelen, .base94 => .ok .bytelenB94

/-- Decoding a CMD word, with the checks of 30_encoding.md R85 in their order. -/
def decode (w : Word) : Except Decode.Reject Instr :=
  if Decode.rsvdField w ≠ 0 then .error .reservedBits
  else
    match Decode.opOf (Decode.opField w) with
    | none => .error .unassignedOp
    | some op =>
      match Decode.codecOf (Decode.codecField w) with
      | none => .error .reservedCodec
      | some c => Decode.row op c

/-- The operation code of each command (30_encoding.md R81). -/
def Instr.opBits : Instr → BitVec 8
  | .read56 => 0x01
  | .write56 => 0x02
  | .radixencB10 | .radixencB45 | .radixencB94 => 0x10
  | .radixdecB10 | .radixdecB45 | .radixdecB94 => 0x11
  | .encodeB10 | .encodeB45 | .encodeB94 => 0x20
  | .decodeB10 | .decodeB45 | .decodeB94 => 0x21
  | .validateB10 | .validateB45 | .validateB94 => 0x22
  | .symlenB10 | .symlenB45 | .symlenB94 => 0x23
  | .bytelenB10 | .bytelenB45 | .bytelenB94 => 0x24

/-- The codec selector of each command (30_encoding.md R82; 0b00 for READ56 and WRITE56, R81). -/
def Instr.codecBits : Instr → BitVec 2
  | .read56 | .write56 => 0b00
  | .radixencB10 | .radixdecB10 | .encodeB10 | .decodeB10 | .validateB10 | .symlenB10 | .bytelenB10 => 0b00
  | .radixencB45 | .radixdecB45 | .encodeB45 | .decodeB45 | .validateB45 | .symlenB45 | .bytelenB45 => 0b01
  | .radixencB94 | .radixdecB94 | .encodeB94 | .decodeB94 | .validateB94 | .symlenB94 | .bytelenB94 => 0b10

/-- The command word `22'b0, CODEC, OP` (30_encoding.md R87). -/
def encode (i : Instr) : Word := (0#22 ++ i.codecBits ++ i.opBits : BitVec 32)

/-- The instruction name of 30_encoding.md R87. -/
def Instr.mnemonic : Instr → String
  | .read56 => "READ56"
  | .write56 => "WRITE56"
  | .radixencB10 => "RADIXENC.B10"
  | .radixencB45 => "RADIXENC.B45"
  | .radixencB94 => "RADIXENC.B94"
  | .radixdecB10 => "RADIXDEC.B10"
  | .radixdecB45 => "RADIXDEC.B45"
  | .radixdecB94 => "RADIXDEC.B94"
  | .encodeB10 => "ENCODE.B10"
  | .decodeB10 => "DECODE.B10"
  | .validateB10 => "VALIDATE.B10"
  | .symlenB10 => "SYMLEN.B10"
  | .bytelenB10 => "BYTELEN.B10"
  | .encodeB45 => "ENCODE.B45"
  | .decodeB45 => "DECODE.B45"
  | .validateB45 => "VALIDATE.B45"
  | .symlenB45 => "SYMLEN.B45"
  | .bytelenB45 => "BYTELEN.B45"
  | .encodeB94 => "ENCODE.B94"
  | .decodeB94 => "DECODE.B94"
  | .validateB94 => "VALIDATE.B94"
  | .symlenB94 => "SYMLEN.B94"
  | .bytelenB94 => "BYTELEN.B94"

/-- All 23 commands, in the order of the opcode table (30_encoding.md R87). -/
def Instr.all : List Instr :=
  [.read56, .write56, .radixencB10, .radixencB45, .radixencB94, .radixdecB10, .radixdecB45, .radixdecB94,
    .encodeB10, .decodeB10, .validateB10, .symlenB10, .bytelenB10,
    .encodeB45, .decodeB45, .validateB45, .symlenB45, .bytelenB45,
    .encodeB94, .decodeB94, .validateB94, .symlenB94, .bytelenB94]

/-- The command that the decoder reads from an nbits-wide word, none where it rejects the word. Every command word is
exactly 32 bits (30_encoding.md R86); a shorter word is filled up with zero bits, a wider number is no command word
(DESIGN CHOICE, safe, log 14). The register is written whole, so no byte order enters (20_memory.md R62). -/
def decodeTableWord (nbits w : Nat) : Option Instr :=
  if w < 2 ^ nbits ∧ w < 2 ^ 32 then
    match decode (BitVec.ofNat 32 w) with
    | .ok i => some i
    | .error _ => none
  else none

end Sys2Proof
end

