-- ==== Sys2Proof/Machine/State.lean ====
section
/-! DEFINITION. The state of the block and of its host as plain data, the exceptions, faults and refusals, and the state after reset (10_state.md R20 to R35, 70_reset_and_hazards.md R270). -/

namespace Sys2Proof.Machine

/-- The three exceptions of the block (60_exceptions.md R240). An exception is no fault of the model: a command that
raises one takes a NEXT state, with STATUS.CODE written. -/
inductive Exn where
  | invalidEncoding
  | outOfRange
  | illegalCommand
deriving DecidableEq, Repr

/-- What stops the machine. -/
inductive Fault where
  /-- Raised by READ56, RADIXDEC.c, ENCODE.c, DECODE.c and VALIDATE.c on reading a source byte at `addr` that neither the
  host nor a command has written since reset (70_reset_and_hazards.md R271: a model "treats a command that reads one ... as
  a fault"). SAFE: the hardware goes on with some byte (log 2). -/
  | unwrittenByte (addr : Nat)
deriving DecidableEq, Repr

/-- What the machine refuses: accesses of the host that lie outside the block's interface. No command is refused. -/
inductive Refusal where
  /-- Raised by a refused arm of `exec`: an instruction without a meaning yet. SAFE. No arm uses it. -/
  | notModelled (mnemonic : String)
  /-- Raised by HostWriteReg and HostReadReg with a register number outside 0..8 (10_state.md R31,
  93_implementation_defined.md S6). SAFE. -/
  | noSuchRegister (r : Nat)
  /-- Raised by HostWriteReg with a value wider than the register (10_state.md R31, 93_implementation_defined.md S8).
  SAFE. -/
  | valueTooWide (r v : Nat)
  /-- Raised by HostWriteMem and HostReadMem at an address not below MEM_SIZE (10_state.md R50,
  93_implementation_defined.md S7). SAFE. -/
  | noSuchAddress (a : Nat)
  /-- Raised by HostWriteMem with a number above 255, which is no byte and no code unit (10_state.md R47,
  93_implementation_defined.md S14). SAFE. -/
  | byteTooWide (b : Nat)
deriving DecidableEq, Repr

/-- MEM as its written bytes: address and byte, addresses strictly rising. An unlisted address has no value: it has not
been written since reset (70_reset_and_hazards.md R271, log 2). -/
abbrev Memory := List Host.Cell

/-- The canonical form of MEM: addresses strictly rising. (An unlisted address has no value, so no entry can equal it.) -/
abbrev Memory.wf (m : Memory) : Prop := m.Pairwise (fun x y => x.1 < y.1)

/-- The host's side of the interface: the MODEL's own fields, not state of the block (log 4). -/
structure HostSide where
  /-- The host operations still to come, oldest first (30_encoding.md R90). -/
  pending : List HostOp
  /-- The number of host operations performed: the host pc of 10_state.md R32. -/
  pc : Nat
  /-- The values the host's reads have returned, oldest first, zero-extended to 64 bits (log 9). -/
  record : List DWord
  /-- How many free values host reads of unwritten bytes have used (log 3). -/
  freeReads : Nat
deriving DecidableEq, Repr

/-- The state: the nine registers of 10_state.md R21, MEM and its size (R35), and the host's side. The constant tables
of R40 to R46 are definitions (Machine/Tables.lean), since nothing writes them (R45). -/
structure State where
  /-- CMD, register 0 (R22). -/
  cmd : Word
  /-- STATUS, register 1; CODE is bits 3:0 (R23). -/
  status : Word
  /-- SRC, register 2 (R24). -/
  src : Word
  /-- LEN, register 3 (R25). -/
  len : Word
  /-- DST, register 4 (R26). -/
  dst : Word
  /-- CAP, register 5 (R27). -/
  cap : Word
  /-- OFF, register 6 (R28). -/
  off : Word
  /-- VAL, register 7 (R29). -/
  val : DWord
  /-- RES, register 8 (R30). -/
  res : DWord
  /-- MEM_SIZE, the open parameter of the instance; no operation writes it (R35, log 1). -/
  memSize : Nat
  /-- MEM (R35). -/
  mem : Memory
  /-- The host's side (log 4). -/
  host : HostSide
deriving DecidableEq, Repr

/-- The host's side before any host operation (DESIGN CHOICE, log 4). -/
def HostSide.start : HostSide := ⟨[], 0, [], 0⟩

/-- The block after reset with a given MEM_SIZE and host's side: every register 0, no MEM byte written
(70_reset_and_hazards.md R270, R271). -/
def State.resetWith (memSize : Nat) (host : HostSide) : State where
  cmd := 0
  status := 0
  src := 0
  len := 0
  dst := 0
  cap := 0
  off := 0
  val := 0
  res := 0
  memSize := memSize
  mem := []
  host := host

/-- The machine right after reset. MEM_SIZE 4096 and the empty host side are DESIGN CHOICES (log 1, log 4). -/
def State.reset : State := State.resetWith Config.memSize HostSide.start

end Sys2Proof.Machine
end

