-- ==== Sys2Proof/Machine/Flags.lean ====
section
/-! DEFINITION. STATUS.CODE, the only outcome a command leaves beside RES and MEM: the block has no condition flags (10_state.md R23, R33; 60_exceptions.md R240). -/

namespace Sys2Proof.Machine

/-- The code of a command that completed (60_exceptions.md R240). -/
def codeOk : BitVec 4 := 0

/-- The code of each exception (60_exceptions.md R240). -/
def Exn.code : Exn → BitVec 4
  | .invalidEncoding => 1
  | .outOfRange => 2
  | .illegalCommand => 3

/-- STATUS.CODE = STATUS[3:0] (10_state.md R23). -/
def State.statusCode (s : State) : BitVec 4 := s.status.extractLsb' 0 4

/-- `reg[STATUS].CODE <- c`: the field alone is written; bits 31:4, which are 0 in every state that a run reaches, stay
(00_scope.md R12, R14; 10_state.md R23; log 11). -/
def State.setCode (s : State) (c : BitVec 4) : State :=
  { s with status := (s.status &&& 0xFFFFFFF0#32) ||| c.setWidth 32 }

end Sys2Proof.Machine
end

