-- ==== Sys2Proof/Machine/Operands.lean ====
section
/-! DEFINITION. Operand assembly: every operand is a whole register read as an unsigned number (30_encoding.md R83), and the two regions with their legality (20_memory.md R64). -/

namespace Sys2Proof.Machine

/-- A region of MEM, in naturals (20_memory.md R64). -/
structure Region where
  base : Nat
  length : Nat
deriving DecidableEq, Repr

/-- A region is legal iff base + length <= MEM_SIZE, the sum in the naturals: no address wraps (20_memory.md R64, R65). -/
abbrev Region.legal (r : Region) (memSize : Nat) : Prop := r.base + r.length ≤ memSize

/-- SRC as a number (10_state.md R24). -/
def State.srcN (s : State) : Nat := s.src.toNat

/-- LEN as a number (10_state.md R25). -/
def State.lenN (s : State) : Nat := s.len.toNat

/-- DST as a number (10_state.md R26). -/
def State.dstN (s : State) : Nat := s.dst.toNat

/-- CAP as a number (10_state.md R27). -/
def State.capN (s : State) : Nat := s.cap.toNat

/-- OFF as a number (10_state.md R28). -/
def State.offN (s : State) : Nat := s.off.toNat

/-- VAL as a number (10_state.md R29). -/
def State.valN (s : State) : Nat := s.val.toNat

/-- The source region (SRC, LEN) (20_memory.md R64). -/
def State.sourceRegion (s : State) : Region := ⟨s.srcN, s.lenN⟩

/-- The destination region (DST, CAP) (20_memory.md R64). -/
def State.destRegion (s : State) : Region := ⟨s.dstN, s.capN⟩

/-- The source region is legal. -/
abbrev State.sourceLegal (s : State) : Prop := s.sourceRegion.legal s.memSize

/-- The destination region is legal. -/
abbrev State.destLegal (s : State) : Prop := s.destRegion.legal s.memSize

end Sys2Proof.Machine
end

