-- ==== Sys2Proof/Machine/Ops.lean ====
section
/-! DEFINITION. The named operations over MEM and the registers, and the two ends of a command: raising an exception and completing (00_scope.md R12 to R14; 20_memory.md R64 to R72). -/

namespace Sys2Proof.Machine

/-- What a command or a host operation answers. -/
abbrev Result := Host.Outcome State Fault Refusal

/-- MEM[a], none when nothing has written it since reset. -/
def Memory.read : Memory → Nat → Option Byte
  | [], _ => none
  | (x, b) :: rest, a => if x = a then some b else Memory.read rest a

/-- MEM[a] <- b, keeping the addresses strictly rising. -/
def Memory.write : Memory → Nat → Byte → Memory
  | [], a, b => [(a, b)]
  | (x, y) :: rest, a, b =>
    if a < x then (a, b) :: (x, y) :: rest
    else if a = x then (a, b) :: rest
    else (x, y) :: Memory.write rest a b

/-- MemRead(addr, n): the n bytes from addr on, or the first address among them that nothing has written
(00_scope.md R13, 70_reset_and_hazards.md R271). -/
def Memory.readBytes (m : Memory) : Nat → Nat → Except Nat (List Byte)
  | _, 0 => .ok []
  | a, n + 1 =>
    match m.read a with
    | none => .error a
    | some b =>
      match Memory.readBytes m (a + 1) n with
      | .ok bs => .ok (b :: bs)
      | .error x => .error x

/-- MemWrite(addr, n, bs) with n the length of bs (00_scope.md R13). -/
def Memory.writeBytes : Memory → Nat → List Byte → Memory
  | m, _, [] => m
  | m, a, b :: bs => Memory.writeBytes (m.write a b) (a + 1) bs

/-- RES <- zext_64(n); every n a command puts there is below 2^64 (10_state.md R30, 42_radix.md R127). -/
def State.setRes (s : State) (n : Nat) : State := { s with res := BitVec.ofNat 64 n }

/-- MemWrite on the state. -/
def State.memWrite (s : State) (a : Nat) (bs : List Byte) : State := { s with mem := s.mem.writeBytes a bs }

/-- TAKING AN EXCEPTION: `raise E` writes STATUS.CODE and no other state; no pc, mode, saved register, vector or handler
exists (00_scope.md R14; 60_exceptions.md R240, R246). There is no return from one (R247). -/
def raise (e : Exn) (s : State) : Result := .next (s.setCode e.code)

/-- `complete`, applied to the state that holds the command's pending writes: STATUS.CODE <- 0 (00_scope.md R14). -/
def complete (s : State) : Result := .next (s.setCode codeOk)

/-- Read the n source bytes at a, then go on with them; a byte that nothing has written stops the machine
(70_reset_and_hazards.md R271). Every source byte is read before anything is written (20_memory.md R71). Each command
reads where its pseudocode has MemRead, which orders this fault among its exceptions: DEDUCED, safe (log 12). -/
def withSource (s : State) (a n : Nat) (go : List Byte → Result) : Result :=
  match s.mem.readBytes a n with
  | .error x => .fault (.unwrittenByte x)
  | .ok bs => go bs

end Sys2Proof.Machine
end

