-- ==== Sys2Proof/Machine/Int56.lean ====
section
/-! DEFINITION. The big-endian 56-bit integer reader/writer: the shared byte-order functions and the commands READ56 and WRITE56 (41_int56.md R100 to R107). -/

namespace Sys2Proof.Machine

/-- be_value(bs), the sum of bs[i] * 256^(s-1-i): the first byte is the most significant (41_int56.md R100). It
is the inverse of `beBytes` (R102; theorems `beBytes_beValue` and `beValue_beBytes`). -/
def beValue : List Byte → Nat
  | [] => 0
  | b :: bs => b.toNat * 256 ^ bs.length + beValue bs

/-- be_bytes(v, s), the bytes (v div 256^(s-1-i)) mod 256 for i in 0..s-1 (41_int56.md R101); used for
v < 256^s, where it is the inverse of `beValue` (R102). -/
def beBytes (v s : Nat) : List Byte :=
  (List.range s).map (fun i => BitVec.ofNat 8 (v / 256 ^ (s - 1 - i) % 256))

/-- readUInt56BE(buf, off); none is the out-of-range failure (41_int56.md R103). -/
def readUInt56BE (buf : List Byte) (off : Nat) : Option Nat :=
  if off + 7 ≤ buf.length then some (beValue ((buf.drop off).take 7)) else none

/-- writeUInt56BE(v, buf, off), answering the new buffer; none is the out-of-range failure, which writes nothing
(41_int56.md R104). -/
def writeUInt56BE (v : Nat) (buf : List Byte) (off : Nat) : Option (List Byte) :=
  if v ≤ 2 ^ 56 - 1 ∧ off + 7 ≤ buf.length then
    some (buf.take off ++ beBytes v 7 ++ buf.drop (off + 7))
  else none

/-- READ56 (41_int56.md R106). -/
def execRead56 (s : State) : Result :=
  if ¬ s.sourceLegal then raise .outOfRange s
  else if s.offN + 7 > s.lenN then raise .outOfRange s
  else withSource s (s.srcN + s.offN) 7 fun bs => complete (s.setRes (beValue bs))

/-- WRITE56 (41_int56.md R107); RES is not written. -/
def execWrite56 (s : State) : Result :=
  if ¬ s.destLegal then raise .outOfRange s
  else if s.val.extractLsb' 56 8 ≠ 0 then raise .outOfRange s
  else if s.offN + 7 > s.capN then raise .outOfRange s
  else complete (s.memWrite (s.dstN + s.offN) (beBytes s.valN 7))

end Sys2Proof.Machine
end

