-- ==== Sys2Proof/Machine/Tables.lean ====
section
/-! DEFINITION. The constant tables of the block: codec parameters, partial tables and their inverses, alphabets (10_state.md R40 to R46, 42_radix.md R120). -/

namespace Sys2Proof

/-- The radix N (10_state.md R40). -/
def Codec.radix : Codec → Nat
  | .base10 => 10
  | .base45 => 45
  | .base94 => 94

/-- GB, the bytes of a full group (10_state.md R40). -/
def Codec.groupBytes : Codec → Nat
  | .base10 => 7
  | .base45 => 2
  | .base94 => 4

/-- GS, the symbols of a full group (10_state.md R40). -/
def Codec.groupSymbols : Codec → Nat
  | .base10 => 17
  | .base45 => 3
  | .base94 => 5

/-- The partial table P[1..GB-1] (10_state.md R40). -/
def Codec.partialTable : Codec → List Nat
  | .base10 => [3, 5, 8, 10, 13, 15]
  | .base45 => [2]
  | .base94 => [2, 3, 4]

/-- The digit order (42_radix.md R120). -/
def Codec.order : Codec → DigitOrder
  | .base10 => .msdFirst
  | .base45 => .lsdFirst
  | .base94 => .lsdFirst

/-- P[0..GB]: the partial table with P[0] = 0 and P[GB] = GS (00_scope.md R17). -/
def Codec.countTable (c : Codec) : List Nat := 0 :: c.partialTable ++ [c.groupSymbols]

/-- P[s], the symbol count of a group of s bytes; used for 0 <= s <= GB only (00_scope.md R17). -/
def Codec.symbolCount (c : Codec) (s : Nat) : Nat := (c.countTable[s]?).getD 0

/-- Pinv(k), the byte count whose table entry is k; undefined (none) for every other k (10_state.md R44). -/
def Codec.byteCount (c : Codec) (k : Nat) : Option Nat := c.countTable.idxOf? k

/-- The base-45 alphabet in order, as code units (10_state.md R42). -/
def alphabet45 : List Byte :=
  [0x30, 0x31, 0x32, 0x33, 0x34, 0x35, 0x36, 0x37, 0x38, 0x39,
    0x41, 0x42, 0x43, 0x44, 0x45, 0x46, 0x47, 0x48, 0x49, 0x4A, 0x4B, 0x4C, 0x4D,
    0x4E, 0x4F, 0x50, 0x51, 0x52, 0x53, 0x54, 0x55, 0x56, 0x57, 0x58, 0x59, 0x5A,
    0x20, 0x24, 0x25, 0x2A, 0x2B, 0x2D, 0x2E, 0x2F, 0x3A]

/-- The code units of the alphabet, in the order of their digit values: 0x30 to 0x39 (10_state.md R41), the table of
R42, 33 to 126 (R43). -/
def Codec.alphabet : Codec → List Byte
  | .base10 => (List.range 10).map (fun d => BitVec.ofNat 8 (0x30 + d))
  | .base45 => alphabet45
  | .base94 => (List.range 94).map (fun d => BitVec.ofNat 8 (33 + d))

/-- idx_c(u), the digit value of a code unit; none when it is not in the alphabet (10_state.md R46). -/
def Codec.digitOf (c : Codec) (u : Byte) : Option Nat := c.alphabet.idxOf? u

/-- inAlpha_c(u) (10_state.md R46). -/
def Codec.inAlphabet (c : Codec) (u : Byte) : Bool := (c.digitOf u).isSome

/-- sym_c(d), the code unit of a digit value; used for d < N only (10_state.md R46). -/
def Codec.symbolOf (c : Codec) (d : Nat) : Byte := (c.alphabet[d]?).getD 0

end Sys2Proof
end

