-- ==== Sys2Proof/Machine/Radix.lean ====
section
/-! DEFINITION. The base-radix converter: digits, rendering, parsing, and the commands RADIXENC.c and RADIXDEC.c (42_radix.md R120 to R137). -/

namespace Sys2Proof.Machine

/-- digits(N, v, k): digit j is (v div N^j) mod N, so digit 0 is the least significant (42_radix.md R121). -/
def digits (N v k : Nat) : List Nat := (List.range k).map (fun j => v / N ^ j % N)

/-- The value of a digit sequence, least significant first: the sum of d[j] * N^j (42_radix.md R121, R123). -/
def digitsValue (N : Nat) : List Nat → Nat
  | [] => 0
  | d :: ds => d + N * digitsValue N ds

/-- A digit sequence, least significant first, in the order in which the codec writes it, and back (42_radix.md R120). -/
def inCodecOrder {α : Type} (c : Codec) (ds : List α) : List α :=
  match c.order with
  | .lsdFirst => ds
  | .msdFirst => ds.reverse

/-- render_c(v, k); used for v < N^k only (42_radix.md R122, R125). -/
def render (c : Codec) (v k : Nat) : List Byte := (inCodecOrder c (digits c.radix v k)).map c.symbolOf

/-- parse_c(syms), none when a symbol is outside the alphabet (42_radix.md R123). -/
def parse (c : Codec) (syms : List Byte) : Option Nat :=
  (syms.mapM c.digitOf).map (fun ds => digitsValue c.radix (inCodecOrder c ds))

/-- The template of RADIXENC.c (42_radix.md R130 to R132). -/
def radixEncCommand (c : Codec) (s : State) : Result :=
  if ¬ s.destLegal then raise .outOfRange s
  else if s.lenN > c.groupSymbols then raise .outOfRange s
  else if s.valN ≥ c.radix ^ s.lenN then raise .outOfRange s
  else if s.lenN > s.capN then raise .outOfRange s
  else complete ((s.memWrite s.dstN (render c s.valN s.lenN)).setRes s.lenN)

/-- The template of RADIXDEC.c (42_radix.md R135 to R137); the value is not tested for fit to a byte count (R125). -/
def radixDecCommand (c : Codec) (s : State) : Result :=
  if ¬ s.sourceLegal then raise .outOfRange s
  else if s.lenN > c.groupSymbols then raise .outOfRange s
  else withSource s s.srcN s.lenN fun syms =>
    match parse c syms with
    | none => raise .invalidEncoding s
    | some v => complete (s.setRes v)

/-- RADIXENC.B10 (42_radix.md R130). -/
def execRadixencB10 (s : State) : Result := radixEncCommand .base10 s

/-- RADIXENC.B45 (42_radix.md R131). -/
def execRadixencB45 (s : State) : Result := radixEncCommand .base45 s

/-- RADIXENC.B94 (42_radix.md R132). -/
def execRadixencB94 (s : State) : Result := radixEncCommand .base94 s

/-- RADIXDEC.B10 (42_radix.md R135). -/
def execRadixdecB10 (s : State) : Result := radixDecCommand .base10 s

/-- RADIXDEC.B45 (42_radix.md R136). -/
def execRadixdecB45 (s : State) : Result := radixDecCommand .base45 s

/-- RADIXDEC.B94 (42_radix.md R137). -/
def execRadixdecB94 (s : State) : Result := radixDecCommand .base94 s

end Sys2Proof.Machine
end

