-- ==== Sys2Proof/Machine/Groups.lean ====
section
/-! DEFINITION. The group-boundary encoder/decoder: the length functions, the sequence encoder, the sequence decoder and the validity predicate (43_groups.md R150 to R161), and the command templates that the three codecs share (44_base10.md, 45_base45.md, 46_base94.md). -/

namespace Sys2Proof.Machine

/-- symLen_c(n) (43_groups.md R151). -/
def symLen (c : Codec) (n : Nat) : Nat := n / c.groupBytes * c.groupSymbols + c.symbolCount (n % c.groupBytes)

/-- validLen_c(L) (43_groups.md R152). -/
abbrev validLen (c : Codec) (L : Nat) : Prop :=
  L % c.groupSymbols = 0 ∨ L % c.groupSymbols ∈ c.partialTable

/-- byteLen_c(L), undefined (none) for a length that is not valid (43_groups.md R153). -/
def byteLen (c : Codec) (L : Nat) : Option Nat :=
  (c.byteCount (L % c.groupSymbols)).map (fun r => L / c.groupSymbols * c.groupBytes + r)

/-- The split of a sequence into full pieces of g from index 0 and one final partial piece if a remainder is left: the
chunks of 43_groups.md R155 for g = GB and the runs of R158 for g = GS. -/
def chunks {α : Type} (g : Nat) (xs : List α) : List (List α) :=
  (List.range (xs.length / g)).map (fun i => (xs.drop (i * g)).take g)
    ++ (if xs.length % g = 0 then [] else [xs.drop (xs.length / g * g)])

/-- encodeGroup_c(ch) (43_groups.md R156). -/
def encodeGroup (c : Codec) (ch : List Byte) : List Byte := render c (beValue ch) (c.symbolCount ch.length)

/-- encodeSeq_c(bs) (43_groups.md R157). -/
def encodeSeq (c : Codec) (bs : List Byte) : List Byte := (chunks c.groupBytes bs).flatMap (encodeGroup c)

/-- decodeGroup_c(ru); none is OVERFLOW, and also a run whose length or symbols R159 does not admit
(43_groups.md R159). -/
def decodeGroup (c : Codec) (ru : List Byte) : Option (List Byte) :=
  match c.byteCount ru.length, parse c ru with
  | some s, some v => if v ≥ 2 ^ (8 * s) then none else some (beBytes v s)
  | _, _ => none

/-- valid_c(t): alphabet, length grammar and range (43_groups.md R160). -/
def valid (c : Codec) (t : List Byte) : Bool :=
  t.all c.inAlphabet && decide (validLen c t.length)
    && (chunks c.groupSymbols t).all (fun ru => (decodeGroup c ru).isSome)

/-- decodeSeq_c(t); none is the failure `InvalidEncoding` (43_groups.md R161). -/
def decodeSeq (c : Codec) (t : List Byte) : Option (List Byte) :=
  if valid c t then ((chunks c.groupSymbols t).mapM (decodeGroup c)).map List.flatten else none

/-- The template of ENCODE.c (R180, R200, R220). -/
def encodeCommand (c : Codec) (s : State) : Result :=
  if ¬ s.sourceLegal then raise .outOfRange s
  else if ¬ s.destLegal then raise .outOfRange s
  else if symLen c s.lenN > s.capN then raise .outOfRange s
  else withSource s s.srcN s.lenN fun bs =>
    complete ((s.memWrite s.dstN (encodeSeq c bs)).setRes (symLen c s.lenN))

/-- The template of DECODE.c (R181, R201, R221): validity before capacity (60_exceptions.md R245). `byteLen` is defined
and `decodeSeq` succeeds exactly on a valid text, so the last alternative is `InvalidEncoding` alone. -/
def decodeCommand (c : Codec) (s : State) : Result :=
  if ¬ s.sourceLegal then raise .outOfRange s
  else if ¬ s.destLegal then raise .outOfRange s
  else withSource s s.srcN s.lenN fun t =>
    match decodeSeq c t, byteLen c s.lenN with
    | some bs, some n =>
      if n > s.capN then raise .outOfRange s
      else complete ((s.memWrite s.dstN bs).setRes n)
    | _, _ => raise .invalidEncoding s

/-- The template of VALIDATE.c (R182, R202, R222). -/
def validateCommand (c : Codec) (s : State) : Result :=
  if ¬ s.sourceLegal then raise .outOfRange s
  else withSource s s.srcN s.lenN fun t => complete (s.setRes (if valid c t then 1 else 0))

/-- The template of SYMLEN.c (R183, R203, R223). -/
def symLenCommand (c : Codec) (s : State) : Result := complete (s.setRes (symLen c s.lenN))

/-- The template of BYTELEN.c (R184, R204, R224). -/
def byteLenCommand (c : Codec) (s : State) : Result :=
  match byteLen c s.lenN with
  | none => raise .invalidEncoding s
  | some n => complete (s.setRes n)

end Sys2Proof.Machine
end

