-- ==== Sys2Proof/Machine/Base10.lean ====
section
/-! DEFINITION. The base-10 codec commands (44_base10.md R180 to R184). -/

namespace Sys2Proof.Machine

/-- ENCODE.B10 (44_base10.md R180). -/
def execEncodeB10 (s : State) : Result := encodeCommand .base10 s

/-- DECODE.B10 (44_base10.md R181). -/
def execDecodeB10 (s : State) : Result := decodeCommand .base10 s

/-- VALIDATE.B10 (44_base10.md R182). -/
def execValidateB10 (s : State) : Result := validateCommand .base10 s

/-- SYMLEN.B10 (44_base10.md R183). -/
def execSymlenB10 (s : State) : Result := symLenCommand .base10 s

/-- BYTELEN.B10 (44_base10.md R184). -/
def execBytelenB10 (s : State) : Result := byteLenCommand .base10 s

end Sys2Proof.Machine
end

