-- ==== Sys2Proof/Machine/Base45.lean ====
section
/-! DEFINITION. The base-45 codec commands (45_base45.md R200 to R204). -/

namespace Sys2Proof.Machine

/-- ENCODE.B45 (45_base45.md R200). -/
def execEncodeB45 (s : State) : Result := encodeCommand .base45 s

/-- DECODE.B45 (45_base45.md R201). -/
def execDecodeB45 (s : State) : Result := decodeCommand .base45 s

/-- VALIDATE.B45 (45_base45.md R202). -/
def execValidateB45 (s : State) : Result := validateCommand .base45 s

/-- SYMLEN.B45 (45_base45.md R203). -/
def execSymlenB45 (s : State) : Result := symLenCommand .base45 s

/-- BYTELEN.B45 (45_base45.md R204). -/
def execBytelenB45 (s : State) : Result := byteLenCommand .base45 s

end Sys2Proof.Machine
end

