-- ==== Sys2Proof/Machine/Base94.lean ====
section
/-! DEFINITION. The base-94 codec commands (46_base94.md R220 to R224). -/

namespace Sys2Proof.Machine

/-- ENCODE.B94 (46_base94.md R220). -/
def execEncodeB94 (s : State) : Result := encodeCommand .base94 s

/-- DECODE.B94 (46_base94.md R221). -/
def execDecodeB94 (s : State) : Result := decodeCommand .base94 s

/-- VALIDATE.B94 (46_base94.md R222). -/
def execValidateB94 (s : State) : Result := validateCommand .base94 s

/-- SYMLEN.B94 (46_base94.md R223). -/
def execSymlenB94 (s : State) : Result := symLenCommand .base94 s

/-- BYTELEN.B94 (46_base94.md R224). -/
def execBytelenB94 (s : State) : Result := byteLenCommand .base94 s

end Sys2Proof.Machine
end

