-- ==== Sys2Proof/Machine/Dispatch.lean ====
section
/-! DEFINITION. The dispatch of a decoded command to its meaning, one arm per row of the opcode table (30_encoding.md R85, R87). -/

namespace Sys2Proof.Machine

/-- "perform the rule of the row (op, codec)" (30_encoding.md R85). -/
def exec (i : Instr) (s : State) : Host.Outcome State Fault Refusal :=
  match i with
  | .read56 => Sys2Proof.Machine.execRead56 s
  | .write56 => Sys2Proof.Machine.execWrite56 s
  | .radixencB10 => Sys2Proof.Machine.execRadixencB10 s
  | .radixencB45 => Sys2Proof.Machine.execRadixencB45 s
  | .radixencB94 => Sys2Proof.Machine.execRadixencB94 s
  | .radixdecB10 => Sys2Proof.Machine.execRadixdecB10 s
  | .radixdecB45 => Sys2Proof.Machine.execRadixdecB45 s
  | .radixdecB94 => Sys2Proof.Machine.execRadixdecB94 s
  | .encodeB10 => Sys2Proof.Machine.execEncodeB10 s
  | .decodeB10 => Sys2Proof.Machine.execDecodeB10 s
  | .validateB10 => Sys2Proof.Machine.execValidateB10 s
  | .symlenB10 => Sys2Proof.Machine.execSymlenB10 s
  | .bytelenB10 => Sys2Proof.Machine.execBytelenB10 s
  | .encodeB45 => Sys2Proof.Machine.execEncodeB45 s
  | .decodeB45 => Sys2Proof.Machine.execDecodeB45 s
  | .validateB45 => Sys2Proof.Machine.execValidateB45 s
  | .symlenB45 => Sys2Proof.Machine.execSymlenB45 s
  | .bytelenB45 => Sys2Proof.Machine.execBytelenB45 s
  | .encodeB94 => Sys2Proof.Machine.execEncodeB94 s
  | .decodeB94 => Sys2Proof.Machine.execDecodeB94 s
  | .validateB94 => Sys2Proof.Machine.execValidateB94 s
  | .symlenB94 => Sys2Proof.Machine.execSymlenB94 s
  | .bytelenB94 => Sys2Proof.Machine.execBytelenB94 s

end Sys2Proof.Machine
end

