-- ==== Sys2Proof/Machine/HostInterface.lean ====
section
/-! DEFINITION. The host interface: what each host operation does to the block (10_state.md R31, R50), the CMD write that runs a command (30_encoding.md R85), and reset (70_reset_and_hazards.md R270). -/

namespace Sys2Proof.Machine

/-- The value a host read of register r returns, zero-extended to 64 bits; none for a number outside 0..8. STATUS[31:4]
reads 0 (10_state.md R23, R31). -/
def State.readReg (s : State) : Nat → Option DWord
  | 0 => some (s.cmd.setWidth 64)
  | 1 => some (s.statusCode.setWidth 64)
  | 2 => some (s.src.setWidth 64)
  | 3 => some (s.len.setWidth 64)
  | 4 => some (s.dst.setWidth 64)
  | 5 => some (s.cap.setWidth 64)
  | 6 => some (s.off.setWidth 64)
  | 7 => some s.val
  | 8 => some s.res
  | _ => none

/-- CMD <- w: the whole word, reserved bits included (10_state.md R22). -/
def State.setCmd (s : State) (w : Word) : State := { s with cmd := w }

/-- The host has received a value (30_encoding.md R90 "the program records the value read"; log 9). -/
def State.recordValue (s : State) (v : DWord) : State := { s with host := { s.host with record := s.host.record ++ [v] } }

/-- The host has received a free value for an unwritten byte (70_reset_and_hazards.md R271, log 3). -/
def State.recordFree (s : State) : State :=
  { s with host := { s.host with
      record := s.host.record ++ [(Config.freeByte s.host.freeReads).setWidth 64]
      freeReads := s.host.freeReads + 1 } }

/-- A write of the word w to CMD: store it, then run the command it names or raise `IllegalCommand`
(30_encoding.md R85). -/
def runCommand (w : Word) (s : State) : Result :=
  match decode w with
  | .error _ => raise .illegalCommand (s.setCmd w)
  | .ok i => exec i (s.setCmd w)

/-- The effect of a host write of a fitting value v to register r: an operand register takes it, CMD starts a command,
STATUS and RES ignore it (10_state.md R31). -/
def storeReg (r v : Nat) (s : State) : Result :=
  match r with
  | 0 => runCommand (BitVec.ofNat 32 v) s
  | 2 => .next { s with src := BitVec.ofNat 32 v }
  | 3 => .next { s with len := BitVec.ofNat 32 v }
  | 4 => .next { s with dst := BitVec.ofNat 32 v }
  | 5 => .next { s with cap := BitVec.ofNat 32 v }
  | 6 => .next { s with off := BitVec.ofNat 32 v }
  | 7 => .next { s with val := BitVec.ofNat 64 v }
  | _ => .next s

/-- HostWriteReg(r, v): a number outside 0..8 or a value wider than the register is refused (10_state.md R31). The order
of the two checks, and the check of the width before a write of STATUS or RES is ignored: DEDUCED, safe (log 6). -/
def hostWriteReg (r v : Nat) (s : State) : Result :=
  match WellFormed.regWidth r with
  | none => .refused (.noSuchRegister r)
  | some width => if v < 2 ^ width then storeReg r v s else .refused (.valueTooWide r v)

/-- HostReadReg(r) (10_state.md R31). -/
def hostReadReg (r : Nat) (s : State) : Result :=
  match s.readReg r with
  | none => .refused (.noSuchRegister r)
  | some v => .next (s.recordValue v)

/-- HostWriteMem(a, b) (10_state.md R50). The address is checked before the byte: DEDUCED, safe (log 7). -/
def hostWriteMem (a b : Nat) (s : State) : Result :=
  if ¬ a < s.memSize then .refused (.noSuchAddress a)
  else if ¬ b < 256 then .refused (.byteTooWide b)
  else .next { s with mem := s.mem.write a (BitVec.ofNat 8 b) }

/-- HostReadMem(a) (10_state.md R50); an unwritten byte reads as a free value (93_implementation_defined.md S1). -/
def hostReadMem (a : Nat) (s : State) : Result :=
  if ¬ a < s.memSize then .refused (.noSuchAddress a)
  else
    match s.mem.read a with
    | some b => .next (s.recordValue (b.setWidth 64))
    | none => .next s.recordFree

/-- Reset of the block (70_reset_and_hazards.md R270). MEM_SIZE is a property of the instance, and the host's own side is
not reset with the block: DEDUCED, unsafe (log 13). -/
def hostReset (s : State) : Result := .next (State.resetWith s.memSize s.host)

/-- One host operation (10_state.md R50). -/
def hostOp (op : HostOp) (s : State) : Result :=
  match op with
  | .writeReg r v => hostWriteReg r v s
  | .readReg r => hostReadReg r s
  | .writeMem a b => hostWriteMem a b s
  | .readMem a => hostReadMem a s
  | .reset => hostReset s

/-- The host moves on to its next operation: it leaves the list, and the host pc goes up by 1 (10_state.md R32). -/
def State.advanceHost (s : State) (rest : List HostOp) : State :=
  { s with host := { s.host with pending := rest, pc := s.host.pc + 1 } }

/-- The host's next operation is put in front of those to come. -/
def State.pushHost (s : State) (op : HostOp) : State :=
  { s with host := { s.host with pending := op :: s.host.pending } }

end Sys2Proof.Machine
end

