-- ==== Sys2Proof/Machine/Step.lean ====
section
/-! DEFINITION. One step of the machine: the host's next operation, performed whole (20_memory.md R70), or idling. -/

namespace Sys2Proof.Machine

/-- One step. With no host operation to come the block is idle and holds all its state (60_exceptions.md R260;
00_scope.md R18: "The block never starts a step by itself"; DEDUCED, safe, log 5). A command takes no time: it has
finished when the step has (70_reset_and_hazards.md R290, log 8). -/
def step (s : State) : Host.Outcome State Fault Refusal :=
  match s.host.pending with
  | [] => .next s
  | op :: rest => hostOp op (s.advanceHost rest)

/-- The state in which the host's next operation is the CMD write of that word: the block fetches nothing from MEM
(20_memory.md R76), commands reach it only as CMD words written by the host (log 4). -/
def State.withFetchWord (s : State) (nbits w : Nat) : State := s.pushHost (.writeReg 0 (w % 2 ^ nbits))

end Sys2Proof.Machine
end

