-- ==== Sys2Proof/Machine/Assembly.lean ====
section
/-! DEFINITION. The host's assembly language: its operations and pseudo-instructions with their expansions, the reading of a program text, and the printing of a command word (30_encoding.md R90 to R92). -/

namespace Sys2Proof

/-- The operands that the named-operand form gives a value (30_encoding.md R91). -/
structure NamedOperands where
  src : Option Nat
  len : Option Nat
  dst : Option Nat
  cap : Option Nat
  off : Option Nat
  val : Option Nat
deriving DecidableEq, Repr

/-- One line of a host program: the operations of 30_encoding.md R90 and the pseudo-instructions of R91. -/
inductive Asm where
  /-- `SET <reg>, <value>`. -/
  | set (reg : RegName) (v : Nat)
  /-- `GET <reg>`. -/
  | get (reg : RegName)
  /-- `STB <addr>, <byte>`. -/
  | stb (a b : Nat)
  /-- `LDB <addr>`. -/
  | ldb (a : Nat)
  /-- `<instruction>`. -/
  | instr (i : Instr)
  /-- `CMD <word>`. -/
  | cmd (w : Nat)
  /-- `STBS <addr>, b0, b1, ...`. -/
  | stbs (a : Nat) (bs : List Nat)
  /-- `STSTR <addr>, "text"`. -/
  | ststr (a : Nat) (text : List Char)
  /-- `<instruction> <name>=<v>, ...`. -/
  | named (i : Instr) (ops : NamedOperands)
deriving DecidableEq, Repr

namespace Machine

/-- The number of a register (10_state.md R21). -/
def regNumber : RegName → Nat
  | .cmd => 0
  | .status => 1
  | .src => 2
  | .len => 3
  | .dst => 4
  | .cap => 5
  | .off => 6
  | .val => 7
  | .res => 8

/-- `STBS` from address a on: one `STB` per byte (30_encoding.md R91), and none for no bytes, a case the spec does not settle:
DESIGN CHOICE, unsafe (log 17). -/
def storeBytesOps : Nat → List Nat → List HostOp
  | _, [] => []
  | a, b :: bs => .writeMem a b :: storeBytesOps (a + 1) bs

/-- The `SET` of one named operand, if it is given. -/
def setIfGiven (reg : RegName) : Option Nat → List HostOp
  | none => []
  | some v => [.writeReg (regNumber reg) v]

/-- One `SET` per named operand, in the order SRC, LEN, DST, CAP, OFF, VAL (30_encoding.md R91). -/
def setNamed (ops : NamedOperands) : List HostOp :=
  setIfGiven .src ops.src ++ setIfGiven .len ops.len ++ setIfGiven .dst ops.dst ++ setIfGiven .cap ops.cap
    ++ setIfGiven .off ops.off ++ setIfGiven .val ops.val

/-- The host operations of one line (30_encoding.md R90, R91). The code unit of a character is its code point, which for
the characters of the three alphabets is the code of 10_state.md R41 to R43 (log 15). -/
def expandAsm : Asm → List HostOp
  | .set reg v => [.writeReg (regNumber reg) v]
  | .get reg => [.readReg (regNumber reg)]
  | .stb a b => [.writeMem a b]
  | .ldb a => [.readMem a]
  | .instr i => [.writeReg 0 (encode i).toNat]
  | .cmd w => [.writeReg 0 w]
  | .stbs a bs => storeBytesOps a bs
  | .ststr a text => storeBytesOps a (text.map Char.toNat)
  | .named i ops => setNamed ops ++ [.writeReg 0 (encode i).toNat]

/-- The host operations of a program, in order. -/
def expandProgram (p : List Asm) : List HostOp := p.flatMap expandAsm

/-- A state whose host is about to run a program, with the host pc at 0 (10_state.md R32). -/
def State.withProgram (s : State) (p : List Asm) : State :=
  { s with host := { s.host with pending := expandProgram p, pc := 0 } }

/-- The hexadecimal digits, upper case. -/
def hexDigits : List Char :=
  ['0', '1', '2', '3', '4', '5', '6', '7', '8', '9', 'A', 'B', 'C', 'D', 'E', 'F']

/-- Eight upper-case hexadecimal digits, most significant first (30_encoding.md R92). -/
def hex8 (w : Word) : List Char :=
  (List.range 8).map (fun i => (hexDigits[w.toNat / 16 ^ (7 - i) % 16]?).getD '0')

/-- Printing a command word: the instruction name of a legal word, `CMD 0x` and eight digits for any other
(30_encoding.md R92). -/
def printWord (w : Word) : List Char :=
  match decode w with
  | .ok i => i.mnemonic.toList
  | .error _ => ['C', 'M', 'D', ' ', '0', 'x'] ++ hex8 w

/-! Reading a program text (30_encoding.md R90, R91). White space, letter case and a `;` inside quotes are not settled by
the spec: DESIGN CHOICE, unsafe (log 10); nor are a quote inside a text (log 16) and a list of no bytes (log 17). -/

/-- White space inside a line: space, tab, carriage return. -/
def isBlank (c : Char) : Bool := c == ' ' || c == '\t' || c == '\r'

/-- A text without leading and trailing white space. -/
def trimBlank (cs : List Char) : List Char := ((cs.dropWhile isBlank).reverse.dropWhile isBlank).reverse

/-- The pieces of a text between the separators. -/
def splitAtChar (sep : Char) : List Char → List (List Char)
  | [] => [[]]
  | c :: cs =>
    match splitAtChar sep cs with
    | [] => [[c]]
    | w :: ws => if c = sep then [] :: w :: ws else (c :: w) :: ws

/-- A line without its comment: a `;` outside quotes starts one. -/
def dropComment : Bool → List Char → List Char
  | _, [] => []
  | quoted, c :: cs =>
    if c = ';' && !quoted then []
    else c :: dropComment (if c = '"' then !quoted else quoted) cs

/-- The value of a decimal or hexadecimal digit; hexadecimal digits may be in either case. -/
def digitValue (base : Nat) (c : Char) : Option Nat :=
  let d :=
    if '0'.toNat ≤ c.toNat ∧ c.toNat ≤ '9'.toNat then some (c.toNat - '0'.toNat)
    else if 'A'.toNat ≤ c.toNat ∧ c.toNat ≤ 'F'.toNat then some (c.toNat - 'A'.toNat + 10)
    else if 'a'.toNat ≤ c.toNat ∧ c.toNat ≤ 'f'.toNat then some (c.toNat - 'a'.toNat + 10)
    else none
  d.bind (fun n => if n < base then some n else none)

/-- A numeral in a base, digits most significant first; the empty text is none. -/
def parseDigits (base : Nat) (cs : List Char) : Option Nat :=
  if cs.isEmpty then none
  else (cs.mapM (digitValue base)).map (fun ds => ds.foldl (fun n d => n * base + d) 0)

/-- A number: decimal, or `0x` and hexadecimal digits (30_encoding.md R90). -/
def parseNumber : List Char → Option Nat
  | '0' :: 'x' :: cs => parseDigits 16 cs
  | cs => parseDigits 10 cs

/-- The nine registers by name (10_state.md R21). -/
def regNames : List (List Char × RegName) :=
  [("CMD".toList, .cmd), ("STATUS".toList, .status), ("SRC".toList, .src), ("LEN".toList, .len), ("DST".toList, .dst),
    ("CAP".toList, .cap), ("OFF".toList, .off), ("VAL".toList, .val), ("RES".toList, .res)]

/-- A register by its name. -/
def parseReg (cs : List Char) : Option RegName := (regNames.find? (fun p => p.1 == cs)).map (fun p => p.2)

/-- A register that SET may name (30_encoding.md R90). -/
def settable : RegName → Bool
  | .src | .len | .dst | .cap | .off | .val => true
  | .cmd | .status | .res => false

/-- An instruction by the name of 30_encoding.md R87. -/
def parseInstr (cs : List Char) : Option Instr := Instr.all.find? (fun i => i.mnemonic.toList == cs)

/-- One `<name>=<v>` added to the named operands; a name given twice is not read. -/
def addNamed (ops : NamedOperands) (arg : List Char) : Option NamedOperands :=
  match splitAtChar '=' arg with
  | [name, number] =>
    (parseNumber (trimBlank number)).bind fun v =>
      let name := trimBlank name
      if name = "src".toList && ops.src.isNone then some { ops with src := some v }
      else if name = "len".toList && ops.len.isNone then some { ops with len := some v }
      else if name = "dst".toList && ops.dst.isNone then some { ops with dst := some v }
      else if name = "cap".toList && ops.cap.isNone then some { ops with cap := some v }
      else if name = "off".toList && ops.off.isNone then some { ops with off := some v }
      else if name = "val".toList && ops.val.isNone then some { ops with val := some v }
      else none
  | _ => none

/-- The text between two quotes. The spec gives no escape form for a quote (0x22, a base-94 symbol) inside the text, and
a text that holds one is not read; its code unit can be written with STB or STBS. DESIGN CHOICE, unsafe (log 16). -/
def parseQuoted (cs : List Char) : Option (List Char) :=
  match cs with
  | '"' :: rest =>
    match rest.reverse with
    | '"' :: body => if body.contains '"' then none else some body.reverse
    | _ => none
  | _ => none

/-- One line by its first word and the rest of it. STBS with an address and no bytes is read, as no operation, and so is
STSTR with an empty text: DESIGN CHOICE, unsafe (log 17). -/
def parseOperation (head rest : List Char) : Option Asm :=
  let args := (splitAtChar ',' rest).map trimBlank
  if head = "SET".toList then
    match args with
    | [r, v] =>
      match parseReg r, parseNumber v with
      | some r, some v => if settable r then some (.set r v) else none
      | _, _ => none
    | _ => none
  else if head = "GET".toList then (parseReg rest).map .get
  else if head = "STB".toList then
    match args with
    | [a, b] =>
      match parseNumber a, parseNumber b with
      | some a, some b => some (.stb a b)
      | _, _ => none
    | _ => none
  else if head = "LDB".toList then (parseNumber rest).map .ldb
  else if head = "CMD".toList then
    (parseNumber rest).bind (fun w => if w < 2 ^ 32 then some (.cmd w) else none)
  else if head = "STBS".toList then
    match args with
    | a :: bs =>
      match parseNumber a, bs.mapM parseNumber with
      | some a, some bs => some (.stbs a bs)
      | _, _ => none
    | [] => none
  else if head = "STSTR".toList then
    match parseNumber (trimBlank (rest.takeWhile (· ≠ ','))),
        parseQuoted (trimBlank ((rest.dropWhile (· ≠ ',')).drop 1)) with
    | some a, some text => some (.ststr a text)
    | _, _ => none
  else
    match parseInstr head with
    | none => none
    | some i =>
      if rest.isEmpty then some (.instr i)
      else (args.foldlM addNamed ⟨none, none, none, none, none, none⟩).map (.named i)

/-- One line of a program: nothing for a blank line or a comment, none for a line that cannot be read. -/
def parseLine (line : List Char) : Option (List Asm) :=
  let cs := trimBlank (dropComment false line)
  if cs.isEmpty then some []
  else
    (parseOperation (cs.takeWhile (fun c => !isBlank c)) (trimBlank (cs.dropWhile (fun c => !isBlank c)))).map
      (fun op => [op])

/-- A program text, one operation a line (30_encoding.md R90). -/
def parseProgram (text : List Char) : Option (List Asm) :=
  ((splitAtChar '\n' text).mapM parseLine).map List.flatten

end Machine

end Sys2Proof
end

