-- ==== Sys2Proof/Machine/Footprint.lean ====
section
/-! DEFINITION. The spec's tables of what each command reads, writes and can end in: the operand table of 30_encoding.md R83, the byte table of 20_memory.md R66, the checks before a command's read, the outcome table of 60_exceptions.md R244. The statements use them; no meaning does. -/

namespace Sys2Proof.Machine

/-- The value of a register as a number. -/
def State.regValue (s : State) : RegName → Nat
  | .cmd => s.cmd.toNat
  | .status => s.status.toNat
  | .src => s.src.toNat
  | .len => s.len.toNat
  | .dst => s.dst.toNat
  | .cap => s.cap.toNat
  | .off => s.off.toNat
  | .val => s.val.toNat
  | .res => s.res.toNat

/-- The operands each command reads (30_encoding.md R83). -/
def operandsOf : Instr → List RegName
  | .read56 => [.src, .len, .off]
  | .write56 => [.dst, .cap, .off, .val]
  | .radixencB10 | .radixencB45 | .radixencB94 => [.val, .len, .dst, .cap]
  | .radixdecB10 | .radixdecB45 | .radixdecB94 => [.src, .len]
  | .encodeB10 | .encodeB45 | .encodeB94 => [.src, .len, .dst, .cap]
  | .decodeB10 | .decodeB45 | .decodeB94 => [.src, .len, .dst, .cap]
  | .validateB10 | .validateB45 | .validateB94 => [.src, .len]
  | .symlenB10 | .symlenB45 | .symlenB94 => [.len]
  | .bytelenB10 | .bytelenB45 | .bytelenB94 => [.len]

/-- The first address and the number of the MEM bytes each command reads (20_memory.md R66). -/
def sourceRange : Instr → State → Nat × Nat
  | .read56, s => (s.srcN + s.offN, 7)
  | .radixdecB10, s | .radixdecB45, s | .radixdecB94, s => (s.srcN, s.lenN)
  | .encodeB10, s | .encodeB45, s | .encodeB94, s => (s.srcN, s.lenN)
  | .decodeB10, s | .decodeB45, s | .decodeB94, s => (s.srcN, s.lenN)
  | .validateB10, s | .validateB45, s | .validateB94, s => (s.srcN, s.lenN)
  | .write56, _ => (0, 0)
  | .radixencB10, _ | .radixencB45, _ | .radixencB94, _ => (0, 0)
  | .symlenB10, _ | .symlenB45, _ | .symlenB94, _ => (0, 0)
  | .bytelenB10, _ | .bytelenB45, _ | .bytelenB94, _ => (0, 0)

/-- The checks that stand before MemRead in each command's pseudocode pass, so that the command reads its source
(41_int56.md R106; 42_radix.md R135 to R137; R180 to R182, R200 to R202, R220 to R222; the order is log 12). The other
commands read no MEM (20_memory.md R66). -/
def reachesMemRead : Instr → State → Prop
  | .read56, s => s.srcN + s.lenN ≤ s.memSize ∧ s.offN + 7 ≤ s.lenN
  | .radixdecB10, s => s.srcN + s.lenN ≤ s.memSize ∧ s.lenN ≤ 17
  | .radixdecB45, s => s.srcN + s.lenN ≤ s.memSize ∧ s.lenN ≤ 3
  | .radixdecB94, s => s.srcN + s.lenN ≤ s.memSize ∧ s.lenN ≤ 5
  | .encodeB10, s =>
    s.srcN + s.lenN ≤ s.memSize ∧ s.dstN + s.capN ≤ s.memSize ∧ symLen .base10 s.lenN ≤ s.capN
  | .encodeB45, s =>
    s.srcN + s.lenN ≤ s.memSize ∧ s.dstN + s.capN ≤ s.memSize ∧ symLen .base45 s.lenN ≤ s.capN
  | .encodeB94, s =>
    s.srcN + s.lenN ≤ s.memSize ∧ s.dstN + s.capN ≤ s.memSize ∧ symLen .base94 s.lenN ≤ s.capN
  | .decodeB10, s | .decodeB45, s | .decodeB94, s =>
    s.srcN + s.lenN ≤ s.memSize ∧ s.dstN + s.capN ≤ s.memSize
  | .validateB10, s | .validateB45, s | .validateB94, s => s.srcN + s.lenN ≤ s.memSize
  | .write56, _ => False
  | .radixencB10, _ | .radixencB45, _ | .radixencB94, _ => False
  | .symlenB10, _ | .symlenB45, _ | .symlenB94, _ => False
  | .bytelenB10, _ | .bytelenB45, _ | .bytelenB94, _ => False

/-- The first address and the number of the MEM bytes each command writes when it completes (20_memory.md R66). -/
def storedRange : Instr → State → Nat × Nat
  | .write56, s => (s.dstN + s.offN, 7)
  | .radixencB10, s | .radixencB45, s | .radixencB94, s => (s.dstN, s.lenN)
  | .encodeB10, s => (s.dstN, symLen .base10 s.lenN)
  | .encodeB45, s => (s.dstN, symLen .base45 s.lenN)
  | .encodeB94, s => (s.dstN, symLen .base94 s.lenN)
  | .decodeB10, s => (s.dstN, (byteLen .base10 s.lenN).getD 0)
  | .decodeB45, s => (s.dstN, (byteLen .base45 s.lenN).getD 0)
  | .decodeB94, s => (s.dstN, (byteLen .base94 s.lenN).getD 0)
  | .read56, _ => (0, 0)
  | .radixdecB10, _ | .radixdecB45, _ | .radixdecB94, _ => (0, 0)
  | .validateB10, _ | .validateB45, _ | .validateB94, _ => (0, 0)
  | .symlenB10, _ | .symlenB45, _ | .symlenB94, _ => (0, 0)
  | .bytelenB10, _ | .bytelenB45, _ | .bytelenB94, _ => (0, 0)

/-- The values of STATUS.CODE each command, once its word is legal, can leave (60_exceptions.md R244). -/
def outcomesOf : Instr → List (BitVec 4)
  | .read56 | .write56 => [0, 2]
  | .radixencB10 | .radixencB45 | .radixencB94 => [0, 2]
  | .radixdecB10 | .radixdecB45 | .radixdecB94 => [0, 1, 2]
  | .encodeB10 | .encodeB45 | .encodeB94 => [0, 2]
  | .decodeB10 | .decodeB45 | .decodeB94 => [0, 1, 2]
  | .validateB10 | .validateB45 | .validateB94 => [0, 2]
  | .symlenB10 | .symlenB45 | .symlenB94 => [0]
  | .bytelenB10 | .bytelenB45 | .bytelenB94 => [0, 1]

end Sys2Proof.Machine
end

