-- ==== Sys2Proof/Safety.lean ====
section
/-! DEFINITION. What counts as a safe state and a safe run, in the terms the statements use. -/

namespace Sys2Proof.Machine

/-- The invariant of the block: MEM_SIZE lies in its range (00_scope.md R7); MEM is in canonical form and lists no
address past MEM_SIZE (10_state.md R35); STATUS[31:4] is 0 and CODE is one of 0..3 (10_state.md R23,
60_exceptions.md R240). -/
abbrev State.wf (s : State) : Prop :=
  1 ≤ s.memSize ∧ s.memSize ≤ 2 ^ 32 ∧ s.mem.wf ∧ (∀ cell ∈ s.mem, cell.1 < s.memSize) ∧ s.status.toNat < 4

/-- The bytes bs stand in MEM from address a on: the premise under which a command that reads them does not fault
(70_reset_and_hazards.md R271, R275). -/
abbrev State.holdsAt (s : State) (a : Nat) (bs : List Byte) : Prop :=
  ∀ i : Fin bs.length, s.mem.read (a + i) = some bs[i]

/-- The state after k steps, if none of them faults or is refused. -/
abbrev runTo (k : Nat) (s t : State) : Prop := Host.Core.run Sys2Proof.core k s = .next t

end Sys2Proof.Machine
end

