-- ==== Sys2Proof/Certificates/Slice0/Obligations.lean ====
section
/-! DEFINITION. The statements for the provers, grouped as the spec's files are: encoding, host interface, whole machine, 56-bit integers, radix converter, groups and codecs. -/

open Sys2Proof Sys2Proof.Machine

/-! ## Encoding -/

/-- 30_encoding.md R87: the 23 rows of the table, written out: each word decodes to its instruction, is what the encoder
gives, and has the name of its row. -/
def Obligations.CommandWordTable : Prop :=
  ∀ row ∈ ([(.read56, 0x00000001, "READ56"), (.write56, 0x00000002, "WRITE56"), (.radixencB10, 0x00000010, "RADIXENC.B10"),
      (.radixencB45, 0x00000110, "RADIXENC.B45"), (.radixencB94, 0x00000210, "RADIXENC.B94"),
      (.radixdecB10, 0x00000011, "RADIXDEC.B10"), (.radixdecB45, 0x00000111, "RADIXDEC.B45"),
      (.radixdecB94, 0x00000211, "RADIXDEC.B94"), (.encodeB10, 0x00000020, "ENCODE.B10"),
      (.decodeB10, 0x00000021, "DECODE.B10"), (.validateB10, 0x00000022, "VALIDATE.B10"),
      (.symlenB10, 0x00000023, "SYMLEN.B10"), (.bytelenB10, 0x00000024, "BYTELEN.B10"),
      (.encodeB45, 0x00000120, "ENCODE.B45"), (.decodeB45, 0x00000121, "DECODE.B45"),
      (.validateB45, 0x00000122, "VALIDATE.B45"), (.symlenB45, 0x00000123, "SYMLEN.B45"),
      (.bytelenB45, 0x00000124, "BYTELEN.B45"), (.encodeB94, 0x00000220, "ENCODE.B94"),
      (.decodeB94, 0x00000221, "DECODE.B94"), (.validateB94, 0x00000222, "VALIDATE.B94"),
      (.symlenB94, 0x00000223, "SYMLEN.B94"), (.bytelenB94, 0x00000224, "BYTELEN.B94")] : List (Instr × Word × String)),
    decode row.2.1 = .ok row.1 ∧ encode row.1 = row.2.1 ∧ row.1.mnemonic = row.2.2

/-- 30_encoding.md R87, over all 2^32 words: a word decodes to an instruction exactly when it is that instruction's word,
so decoding the encoding gives the instruction back and no second word names it. -/
def Obligations.DecodeInvertsEncode : Prop :=
  ∀ (w : Word) (i : Instr), decode w = .ok i ↔ encode i = w

/-- 30_encoding.md R84, 60_exceptions.md R243: a word with one of the four defects raises IllegalCommand, whatever the
operands hold, and changes STATUS alone beside the CMD register that the host wrote; every other word is a command. -/
def Obligations.IllegalWordRaisesIllegalCommand : Prop :=
  ∀ (w : Word) (s : State),
    let illegal :=
      w.toNat / 2 ^ 10 ≠ 0 ∨ w.toNat % 2 ^ 8 ∉ [0x01, 0x02, 0x10, 0x11, 0x20, 0x21, 0x22, 0x23, 0x24] ∨
        w.toNat / 2 ^ 8 % 4 = 3 ∨ (w.toNat % 2 ^ 8 ∈ [0x01, 0x02] ∧ w.toNat / 2 ^ 8 % 4 ≠ 0)
    (illegal → ∃ t, hostOp (.writeReg 0 w.toNat) s = .next t ∧ t = { s with cmd := w, status := t.status } ∧
      t.statusCode = 3 ∧ t.status &&& 0xFFFFFFF0#32 = s.status &&& 0xFFFFFFF0#32) ∧
    (¬ illegal → ∃ i, decode w = .ok i ∧ encode i = w)

/-! ## Host interface and steps -/

/-- 30_encoding.md R85: when the host's next operation writes a legal word to CMD, the step stores the word and runs the
command it names; the host moves on. -/
def Obligations.StepRunsDecodedCommand : Prop :=
  ∀ (s : State) (v : Nat) (rest : List HostOp) (i : Instr),
    s.host.pending = .writeReg 0 v :: rest → v < 2 ^ 32 → decode (BitVec.ofNat 32 v) = .ok i →
      step s = exec i { s with cmd := BitVec.ofNat 32 v, host := { s.host with pending := rest, pc := s.host.pc + 1 } }

/-- 10_state.md R32, R50, 60_exceptions.md R260: a step performs the host's next operation, with the host pc up by one, and
with none to come the block holds all its state (the idle step is the model's choice, log 5). -/
def Obligations.StepPerformsNextHostOperation : Prop :=
  ∀ s : State,
    (∀ op rest, s.host.pending = op :: rest →
      step s = hostOp op { s with host := { s.host with pending := rest, pc := s.host.pc + 1 } }) ∧
    (s.host.pending = [] → step s = .next s)

/-- 10_state.md R32: every host operation that is performed takes the next one off the list and counts the host pc up by
one; the recorded values only grow. The form of the record is the model's choice (log 9, for 30_encoding.md R90), and so is
that the list and the record go on after a reset (log 13). -/
def Obligations.HostPcCountsOperations : Prop :=
  ∀ (s t : State) (op : HostOp) (rest : List HostOp), s.host.pending = op :: rest → step s = .next t →
    t.host.pending = rest ∧ t.host.pc = s.host.pc + 1 ∧ s.host.record <+: t.host.record

/-- 10_state.md R31: what a host write does to each register, and which writes are refused. That a too wide value is refused
for STATUS and RES too, which otherwise ignore a write, is the model's choice (log 6). -/
def Obligations.HostWritesRegister : Prop :=
  ∀ (s : State) (r v : Nat),
    (2 ≤ r → r ≤ 7 → v < 2 ^ (if r = 7 then 64 else 32) →
      ∃ t, hostOp (.writeReg r v) s = .next t ∧ t.readReg r = some (BitVec.ofNat 64 v) ∧
        (∀ r', r' ≠ r → t.readReg r' = s.readReg r') ∧ t.status = s.status ∧ t.mem = s.mem ∧ t.memSize = s.memSize ∧
        t.host = s.host) ∧
    (r = 1 ∧ v < 2 ^ 32 ∨ r = 8 ∧ v < 2 ^ 64 → hostOp (.writeReg r v) s = .next s) ∧
    (8 < r → hostOp (.writeReg r v) s = .refused (.noSuchRegister r)) ∧
    (r ≤ 8 → 2 ^ (if r = 7 ∨ r = 8 then 64 else 32) ≤ v → hostOp (.writeReg r v) s = .refused (.valueTooWide r v)) ∧
    (r = 0 → v < 2 ^ 32 → ∀ i, decode (BitVec.ofNat 32 v) = .ok i →
      hostOp (.writeReg r v) s = exec i { s with cmd := BitVec.ofNat 32 v })

/-- 10_state.md R31: a host read returns the register's value, which the host records, and changes nothing of the block.
STATUS[31:4] is 0 (R23), which the premise says for STATUS. The form of the record is the model's choice (log 9). -/
def Obligations.HostReadsRegister : Prop :=
  ∀ s : State, s.status.toNat < 16 →
    (∀ row ∈ [(0, s.cmd.toNat), (1, s.status.toNat), (2, s.src.toNat), (3, s.len.toNat), (4, s.dst.toNat),
        (5, s.cap.toNat), (6, s.off.toNat), (7, s.val.toNat), (8, s.res.toNat)],
      hostOp (.readReg row.1) s =
        .next { s with host := { s.host with record := s.host.record ++ [BitVec.ofNat 64 row.2] } }) ∧
    (∀ r, 8 < r → hostOp (.readReg r) s = .refused (.noSuchRegister r))

/-- 10_state.md R50, 20_memory.md R68: a host write puts its byte at its address and nowhere else; a host read of a written
byte returns the last value written and changes nothing of the block. The form of the record is the model's choice
(log 9, for 30_encoding.md R90). -/
def Obligations.HostMemoryAccess : Prop :=
  ∀ (s : State) (a : Nat),
    (∀ b, a < s.memSize → b < 256 →
      ∃ t, hostOp (.writeMem a b) s = .next t ∧ t = { s with mem := t.mem } ∧ t.mem.read a = some (BitVec.ofNat 8 b) ∧
        ∀ a', a' ≠ a → t.mem.read a' = s.mem.read a') ∧
    (∀ b, a < s.memSize → s.mem.read a = some b →
      hostOp (.readMem a) s =
        .next { s with host := { s.host with record := s.host.record ++ [b.setWidth 64] } })

/-- 70_reset_and_hazards.md R271, 93_implementation_defined.md S1: a host read of a byte that nothing has written completes
and returns some byte: the free value, whatever it is (log 3; the form of the record is log 9). -/
def Obligations.HostReadOfUnwrittenByteCompletes : Prop :=
  ∀ (s : State) (a : Nat), a < s.memSize → s.mem.read a = none →
    ∃ (b : Byte) (t : State), hostOp (.readMem a) s = .next t ∧ t = { s with host := t.host } ∧
      t.host.record = s.host.record ++ [b.setWidth 64] ∧ t.host.freeReads = s.host.freeReads + 1

/-- 10_state.md R31, R50, 93_implementation_defined.md S6, S7, S8, S14: a host operation is refused exactly when it lies
outside the block's interface. Two cases are the model's choices: a too wide value for STATUS or RES (log 6), and a byte
above 255 written by HostWriteMem, where S14 speaks of code points in a text (log 7). -/
def Obligations.RefusedExactlyOutsideInterface : Prop :=
  ∀ (s : State) (op : HostOp), (∃ r, hostOp op s = .refused r) ↔ op.wf s.memSize = false

/-- 70_reset_and_hazards.md R270: after a reset every register is 0, and no MEM byte has a value; so it is in
State.reset too. -/
def Obligations.ResetClearsBlock : Prop :=
  (∀ s : State, ∃ t, hostOp .reset s = .next t ∧ (∀ r ≤ 8, t.readReg r = some 0) ∧ t.status = 0 ∧
    ∀ a, t.mem.read a = none) ∧
  (∀ r ≤ 8, State.reset.readReg r = some 0) ∧ State.reset.status = 0 ∧ ∀ a, State.reset.mem.read a = none

/-- The model's choice (log 13): a reset keeps MEM_SIZE and the host's side. -/
def Obligations.ResetKeepsInstanceAndHost : Prop :=
  ∀ s t : State, hostOp .reset s = .next t → t.memSize = s.memSize ∧ t.host = s.host

/-- 10_state.md R22, 70_reset_and_hazards.md R284: after a write of any word to CMD that ends, CMD reads as that word,
whatever the outcome, and no other host operation but a reset changes it. -/
def Obligations.CommandWordReadsBack : Prop :=
  ∀ (s t : State) (op : HostOp), hostOp op s = .next t →
    (∀ v, op = .writeReg 0 v → t.cmd = BitVec.ofNat 32 v ∧ t.readReg 0 = some (BitVec.ofNat 64 v)) ∧
    ((∀ v, op ≠ .writeReg 0 v) → op ≠ .reset → t.cmd = s.cmd)

/-- 30_encoding.md R92: a legal word prints as its instruction name, any other as CMD 0x and its eight upper-case
hexadecimal digits. -/
def Obligations.PrintedCommandWord : Prop :=
  ∀ w : Word,
    (∀ i, decode w = .ok i → printWord w = i.mnemonic.toList) ∧
    (∀ x, decode w = .error x → ∃ ds : List Nat, ds.length = 8 ∧ (∀ d ∈ ds, d < 16) ∧
      ds.foldl (fun n d => n * 16 + d) 0 = w.toNat ∧
      printWord w = "CMD 0x".toList ++ ds.map (fun d => ("0123456789ABCDEF".toList[d]?).getD ' '))

/-- 30_encoding.md R90, R91: the host operations of every operation and pseudo-instruction, run in order; the named
operands that are given, whichever they are, are set in the order SRC, LEN, DST, CAP, OFF, VAL. That the code unit of a
character is its code point rests on ASCII (log 15). That STBS with no bytes and STSTR of an empty text expand to no
operation is the model's choice (log 17): the spec does not say whether they may be empty. -/
def Obligations.AssemblyExpansions : Prop :=
  (∀ row ∈ [(RegName.src, 2), (.len, 3), (.dst, 4), (.cap, 5), (.off, 6), (.val, 7)], ∀ v,
    expandAsm (.set row.1 v) = [.writeReg row.2 v]) ∧
  (∀ row ∈ [(RegName.cmd, 0), (.status, 1), (.src, 2), (.len, 3), (.dst, 4), (.cap, 5), (.off, 6), (.val, 7), (.res, 8)],
    expandAsm (.get row.1) = [.readReg row.2]) ∧
  (∀ a b, expandAsm (.stb a b) = [.writeMem a b]) ∧ (∀ a, expandAsm (.ldb a) = [.readMem a]) ∧
  (∀ i, expandAsm (.instr i) = [.writeReg 0 (encode i).toNat]) ∧ (∀ w, expandAsm (.cmd w) = [.writeReg 0 w]) ∧
  (∀ a bs, expandAsm (.stbs a bs) = (List.range bs.length).map (fun j => .writeMem (a + j) ((bs[j]?).getD 0))) ∧
  (∀ a text, expandAsm (.ststr a text) = expandAsm (.stbs a (text.map Char.toNat))) ∧
  (∀ i src len dst cap off val,
    expandAsm (.named i ⟨src, len, dst, cap, off, val⟩) =
      [(2, src), (3, len), (4, dst), (5, cap), (6, off), (7, val)].filterMap (fun p => p.2.map (HostOp.writeReg p.1)) ++
        [.writeReg 0 (encode i).toNat]) ∧
  (∀ line rest, expandProgram (line :: rest) = expandAsm line ++ expandProgram rest) ∧ expandProgram [] = [] ∧
  expandAsm (.named .encodeB45 ⟨some 0x100, some 2, some 0x200, some 3, none, none⟩) =
    [.writeReg 2 0x100, .writeReg 3 2, .writeReg 4 0x200, .writeReg 5 3, .writeReg 0 0x120]

/-! ## Whole machine -/

/-- 00_scope.md R7, 10_state.md R23, R35, 60_exceptions.md R240: every step keeps MEM_SIZE in its range, MEM in canonical
form below MEM_SIZE, and STATUS a code of 0..3 with bits 31:4 zero. -/
def Obligations.StepKeepsStateWf : Prop :=
  ∀ s t : State, s.wf → step s = .next t → t.wf

/-- The invariant holds after reset, for every MEM_SIZE of the range. -/
def Obligations.ResetMeetsStateWf : Prop :=
  (∀ (n : Nat) (host : HostSide), 1 ≤ n → n ≤ 2 ^ 32 → (State.resetWith n host).wf) ∧ State.reset.wf

/-- 10_state.md R21 ("written by commands"), 00_scope.md R12, R14: no command writes CMD, SRC, LEN, DST, CAP, OFF or VAL,
nor anything of the host's side, whether it completes or raises. That it keeps STATUS[31:4] as it stands, and writes CODE
alone, is the model's reading of R14 and 10_state.md R23 (log 11). -/
def Obligations.CommandsWriteOnlyStatusResMem : Prop :=
  ∀ (i : Instr) (s t : State), exec i s = .next t →
    t.cmd = s.cmd ∧ t.src = s.src ∧ t.len = s.len ∧ t.dst = s.dst ∧ t.cap = s.cap ∧ t.off = s.off ∧ t.val = s.val ∧
      t.memSize = s.memSize ∧ t.host = s.host ∧ t.status &&& 0xFFFFFFF0#32 = s.status &&& 0xFFFFFFF0#32

/-- 60_exceptions.md R246: a command that ends with a code other than OK has changed STATUS.CODE and nothing else, beside
the CMD register that the host wrote to start it; this for every CMD word, the illegal ones too. -/
def Obligations.FailingCommandChangesOnlyCode : Prop :=
  (∀ (i : Instr) (s t : State), exec i s = .next t → t.statusCode ≠ 0 →
    t = { s with status := t.status } ∧ t.status &&& 0xFFFFFFF0#32 = s.status &&& 0xFFFFFFF0#32) ∧
  (∀ (w : Word) (s t : State), hostOp (.writeReg 0 w.toNat) s = .next t → t.statusCode ≠ 0 →
    t = { s with cmd := w, status := t.status } ∧ t.status &&& 0xFFFFFFF0#32 = s.status &&& 0xFFFFFFF0#32)

/-- 60_exceptions.md R244: each command ends only in the codes of its row of the outcome table, and from some state that
meets the invariant it ends in each of them. -/
def Obligations.OutcomeTable : Prop :=
  ∀ i : Instr,
    (∀ s t : State, exec i s = .next t → t.statusCode ∈ outcomesOf i) ∧
    (∀ c ∈ outcomesOf i, ∃ s t : State, s.wf ∧ exec i s = .next t ∧ t.statusCode = c)

/-- 60_exceptions.md R247: STATUS is not sticky: the outcome of a command does not depend on the code before it, and
overwrites it. -/
def Obligations.StatusNotSticky : Prop :=
  ∀ (i : Instr) (s : State) (c : BitVec 4), exec i (s.setCode c) = exec i s

/-- 30_encoding.md R83, 20_memory.md R66, 10_state.md R34: what a command does depends only on MEM_SIZE, on the operands its
row lists and on the MEM bytes its row reads: two states that agree on these give the same outcome, the same RES (or both
keep theirs) and, byte by byte, the same MEM (or both keep theirs). -/
def Obligations.CommandsReadOnlyTheirOperands : Prop :=
  ∀ (i : Instr) (s u : State), s.memSize = u.memSize → (∀ r ∈ operandsOf i, s.regValue r = u.regValue r) →
    (∀ a, (sourceRange i s).1 ≤ a → a < (sourceRange i s).1 + (sourceRange i s).2 → s.mem.read a = u.mem.read a) →
    (∀ f, exec i s = .fault f → exec i u = .fault f) ∧
    (∀ s', exec i s = .next s' → ∃ u', exec i u = .next u' ∧ u'.statusCode = s'.statusCode ∧
      (u'.res = s'.res ∨ (s'.res = s.res ∧ u'.res = u.res)) ∧
      ∀ a, u'.mem.read a = s'.mem.read a ∨ (s'.mem.read a = s.mem.read a ∧ u'.mem.read a = u.mem.read a))

/-- 70_reset_and_hazards.md R271, 93_implementation_defined.md S1: a command faults exactly when it comes to read its
source and some byte of it has not been written; the fault names such a byte; no command is refused. Where the read stands
among the checks is log 12; which of several unwritten bytes the fault names is log 2 and not said here. -/
def Obligations.CommandFaultsOnlyOnUnwrittenSource : Prop :=
  ∀ (i : Instr) (s : State),
    ((∃ f, exec i s = .fault f) ↔ reachesMemRead i s ∧ ∃ a, (sourceRange i s).1 ≤ a ∧
      a < (sourceRange i s).1 + (sourceRange i s).2 ∧ s.mem.read a = none) ∧
    (∀ f, exec i s = .fault f → ∃ a, f = .unwrittenByte a ∧ s.mem.read a = none ∧ (sourceRange i s).1 ≤ a ∧
      a < (sourceRange i s).1 + (sourceRange i s).2) ∧
    (∀ r, exec i s ≠ .refused r)

/-- 70_reset_and_hazards.md R275, R290: a command whose source bytes have all been written ends, from every state and with
every operand. -/
def Obligations.CommandEndsWhenSourceWritten : Prop :=
  ∀ (i : Instr) (s : State),
    (∀ a, (sourceRange i s).1 ≤ a → a < (sourceRange i s).1 + (sourceRange i s).2 → s.mem.read a ≠ none) →
      ∃ t, exec i s = .next t

/-- 20_memory.md R66: the frame of the storing commands (WRITE56, RADIXENC.c, ENCODE.c, DECODE.c): no byte outside the
stored range of the row changes; and when the code is not 0, no byte changes. -/
def Obligations.StoringCommandsFrame : Prop :=
  ∀ (i : Instr) (s t : State),
    i ∈ [Instr.write56, .radixencB10, .radixencB45, .radixencB94, .encodeB10, .encodeB45, .encodeB94, .decodeB10,
      .decodeB45, .decodeB94] →
    exec i s = .next t →
      (∀ a, a < (storedRange i s).1 ∨ (storedRange i s).1 + (storedRange i s).2 ≤ a →
        t.mem.read a = s.mem.read a) ∧
      (t.statusCode ≠ 0 → ∀ a, t.mem.read a = s.mem.read a) ∧
      (i = .write56 → t.res = s.res)

/-- 20_memory.md R66: the frame of the commands that store nothing: every byte of MEM reads as before, and RES changes
only when the code is 0. -/
def Obligations.NonStoringCommandsFrame : Prop :=
  ∀ (i : Instr) (s t : State),
    i ∈ [Instr.read56, .radixdecB10, .radixdecB45, .radixdecB94, .validateB10, .validateB45, .validateB94, .symlenB10,
      .symlenB45, .symlenB94, .bytelenB10, .bytelenB45, .bytelenB94] →
    exec i s = .next t → (∀ a, t.mem.read a = s.mem.read a) ∧ (t.statusCode ≠ 0 → t.res = s.res)

/-! ## 56-bit integers -/

/-- 41_int56.md R106: READ56, its word, where it traps, and its result. The value is written out byte by byte, most
significant first. -/
def Obligations.Read56Result : Prop :=
  decode 0x00000001 = .ok .read56 ∧
  ∀ s : State,
    (s.src.toNat + s.len.toNat > s.memSize ∨ s.off.toNat + 7 > s.len.toNat →
      ∃ t, exec .read56 s = .next t ∧ t.statusCode = 2 ∧ t = { s with status := t.status }) ∧
    (∀ b0 b1 b2 b3 b4 b5 b6 : Byte,
      s.src.toNat + s.len.toNat ≤ s.memSize → s.off.toNat + 7 ≤ s.len.toNat →
      s.holdsAt (s.src.toNat + s.off.toNat) [b0, b1, b2, b3, b4, b5, b6] →
        ∃ t, exec .read56 s = .next t ∧ t.statusCode = 0 ∧ t = { s with status := t.status, res := t.res } ∧
          t.res = (0#8 ++ b0 ++ b1 ++ b2 ++ b3 ++ b4 ++ b5 ++ b6 : BitVec 64))

/-- 41_int56.md R107: WRITE56, its word, where it traps, and the seven bytes it stores: byte j is bits 55-8j down to 48-8j
of VAL. A value of 2^56 or more is refused, not truncated; RES is not written. -/
def Obligations.Write56Result : Prop :=
  decode 0x00000002 = .ok .write56 ∧
  ∀ s : State,
    (s.dst.toNat + s.cap.toNat > s.memSize ∨ 2 ^ 56 ≤ s.val.toNat ∨ s.off.toNat + 7 > s.cap.toNat →
      ∃ t, exec .write56 s = .next t ∧ t.statusCode = 2 ∧ t = { s with status := t.status }) ∧
    (s.dst.toNat + s.cap.toNat ≤ s.memSize → s.val.toNat < 2 ^ 56 → s.off.toNat + 7 ≤ s.cap.toNat →
      ∃ t, exec .write56 s = .next t ∧ t.statusCode = 0 ∧ t = { s with status := t.status, mem := t.mem } ∧
        (∀ j < 7, t.mem.read (s.dst.toNat + s.off.toNat + j) = some (s.val.extractLsb' (48 - 8 * j) 8)) ∧
        ∀ a, a < s.dst.toNat + s.off.toNat ∨ s.dst.toNat + s.off.toNat + 7 ≤ a → t.mem.read a = s.mem.read a)

/-- 41_int56.md R102: the big-endian value and the big-endian bytes are inverse to each other. -/
def Obligations.BigEndianInverseLaws : Prop :=
  (∀ bs : List Byte, beBytes (beValue bs) bs.length = bs) ∧
  (∀ v s : Nat, v < 2 ^ (8 * s) → beValue (beBytes v s) = v)

/-- 41_int56.md R103, R104: when the two helpers fail, and what they do when they do not. None is the out-of-range
failure. -/
def Obligations.UInt56HelpersSucceedAndFail : Prop :=
  (∀ (buf : List Byte) (off : Nat),
    (off + 7 > buf.length → readUInt56BE buf off = none) ∧
    (off + 7 ≤ buf.length → readUInt56BE buf off = some (beValue ((buf.drop off).take 7)) ∧
      beValue ((buf.drop off).take 7) ≤ 2 ^ 56 - 1)) ∧
  (∀ (v : Nat) (buf : List Byte) (off : Nat),
    (v > 2 ^ 56 - 1 ∨ off + 7 > buf.length → writeUInt56BE v buf off = none) ∧
    (v ≤ 2 ^ 56 - 1 → off + 7 ≤ buf.length → ∃ out, writeUInt56BE v buf off = some out ∧ out.length = buf.length ∧
      (∀ i < 7, out[off + i]? = (beBytes v 7)[i]?) ∧
      ∀ i, i < off ∨ off + 7 ≤ i → out[i]? = buf[i]?))

/-- 41_int56.md R103, R104: the helpers, and R163: they never fail on a base-10 full group, where they equal the big-endian
value and bytes. -/
def Obligations.Base10GroupUsesInt56Helpers : Prop :=
  (∀ ch : List Byte, ch.length = 7 → readUInt56BE ch 0 = some (beValue ch) ∧
    ∀ v, readUInt56BE ch 0 = some v → encodeGroup .base10 ch = render .base10 v 17) ∧
  (∀ (ru bs out : List Byte) (off : Nat), ru.length = 17 → decodeGroup .base10 ru = some bs → off + 7 ≤ out.length →
    ∃ v, parse .base10 ru = some v ∧ writeUInt56BE v out off = some (out.take off ++ bs ++ out.drop (off + 7)))

/-- WRITE56 and then READ56 of the same place gives VAL back (41_int56.md R102, R106, R107). -/
def Obligations.Write56ThenRead56 : Prop :=
  ∀ s t : State, exec .write56 s = .next t → t.statusCode = 0 →
    ∃ u, exec .read56 { t with src := t.dst, len := t.cap } = .next u ∧ u.statusCode = 0 ∧ u.res = s.val

/-! ## Alphabets and the radix converter -/

/-- 10_state.md R43: the base-94 alphabet is the code units 33 to 126, the value of a member is its code unit less 33, and
the symbol of a value d is the code unit d + 33. -/
def Obligations.Base94Alphabet : Prop :=
  (∀ u : Byte, (.base94 : Codec).digitOf u = if 33 ≤ u.toNat ∧ u.toNat ≤ 126 then some (u.toNat - 33) else none) ∧
  (∀ d < 94, (.base94 : Codec).symbolOf d = BitVec.ofNat 8 (d + 33)) ∧
  (.base94 : Codec).inAlphabet 32 = false ∧ (.base94 : Codec).inAlphabet 127 = false

/-- 10_state.md R41, R42: the base-10 and base-45 alphabets, with the ASCII code units that the spec marks as general
knowledge (log 15): the digit value of every code unit, and the symbol of every digit value. -/
def Obligations.Base10AndBase45Alphabets : Prop :=
  (∀ u : Byte,
    (.base10 : Codec).digitOf u = (if 0x30 ≤ u.toNat ∧ u.toNat ≤ 0x39 then some (u.toNat - 0x30) else none) ∧
    (.base45 : Codec).digitOf u =
      ("0123456789ABCDEFGHIJKLMNOPQRSTUVWXYZ $%*+-./:".toList.map Char.toNat).idxOf? u.toNat) ∧
  (∀ d < 10, (.base10 : Codec).symbolOf d = BitVec.ofNat 8 (0x30 + d)) ∧
  (∀ d < 45, some ((.base45 : Codec).symbolOf d).toNat =
    ("0123456789ABCDEFGHIJKLMNOPQRSTUVWXYZ $%*+-./:".toList.map Char.toNat)[d]?)

/-- 42_radix.md R131, R132: RADIXENC.B45 and RADIXENC.B94, their words, where they trap, and their result: symbol j, least
significant first, has digit value (VAL div N^j) mod N. -/
def Obligations.RadixencLsdFirstResult : Prop :=
  ∀ w i c N GS, (w, i, c, N, GS) ∈
      [(0x00000110#32, Instr.radixencB45, Codec.base45, 45, 3), (0x00000210#32, .radixencB94, .base94, 94, 5)] →
    decode w = .ok i ∧
    ∀ s : State,
      (s.dst.toNat + s.cap.toNat > s.memSize ∨ s.len.toNat > GS ∨ s.val.toNat ≥ N ^ s.len.toNat ∨
          s.len.toNat > s.cap.toNat →
        ∃ t, exec i s = .next t ∧ t.statusCode = 2 ∧ t = { s with status := t.status }) ∧
      (s.dst.toNat + s.cap.toNat ≤ s.memSize → s.len.toNat ≤ GS → s.val.toNat < N ^ s.len.toNat →
          s.len.toNat ≤ s.cap.toNat →
        ∃ t, exec i s = .next t ∧ t.statusCode = 0 ∧ t = { s with status := t.status, res := t.res, mem := t.mem } ∧
          t.res.toNat = s.len.toNat ∧
          (∀ j < s.len.toNat, t.mem.read (s.dst.toNat + j) = some (c.symbolOf (s.val.toNat / N ^ j % N))) ∧
          ∀ a, a < s.dst.toNat ∨ s.dst.toNat + s.len.toNat ≤ a → t.mem.read a = s.mem.read a)

/-- 42_radix.md R130: RADIXENC.B10, its word, where it traps, and its result: the LEN decimal digits of VAL, most
significant first, with leading zeros. The byte 0x30 of the digit 0 rests on ASCII (log 15). -/
def Obligations.RadixencB10Result : Prop :=
  decode 0x00000010 = .ok .radixencB10 ∧
  ∀ s : State,
    (s.dst.toNat + s.cap.toNat > s.memSize ∨ s.len.toNat > 17 ∨ s.val.toNat ≥ 10 ^ s.len.toNat ∨
        s.len.toNat > s.cap.toNat →
      ∃ t, exec .radixencB10 s = .next t ∧ t.statusCode = 2 ∧ t = { s with status := t.status }) ∧
    (s.dst.toNat + s.cap.toNat ≤ s.memSize → s.len.toNat ≤ 17 → s.val.toNat < 10 ^ s.len.toNat →
        s.len.toNat ≤ s.cap.toNat →
      ∃ t, exec .radixencB10 s = .next t ∧ t.statusCode = 0 ∧
        t = { s with status := t.status, res := t.res, mem := t.mem } ∧ t.res.toNat = s.len.toNat ∧
        (∀ j < s.len.toNat, t.mem.read (s.dst.toNat + j) =
          some (BitVec.ofNat 8 (0x30 + s.val.toNat / 10 ^ (s.len.toNat - 1 - j) % 10))) ∧
        ∀ a, a < s.dst.toNat ∨ s.dst.toNat + s.len.toNat ≤ a → t.mem.read a = s.mem.read a)

/-- 42_radix.md R135 to R137: RADIXDEC.c, their words; OutOfRange for an illegal region or more than GS symbols, before the
symbols are looked at; InvalidEncoding for a symbol outside the alphabet; and on symbols of the alphabet their positional
value, most significant first for base 10, least significant first for base 45 and 94. -/
def Obligations.RadixdecResult : Prop :=
  ∀ w i c N GS, (w, i, c, N, GS) ∈
      [(0x00000011#32, Instr.radixdecB10, Codec.base10, 10, 17), (0x00000111#32, .radixdecB45, .base45, 45, 3),
        (0x00000211#32, .radixdecB94, .base94, 94, 5)] →
    decode w = .ok i ∧
    ∀ s : State,
      (s.src.toNat + s.len.toNat > s.memSize ∨ s.len.toNat > GS →
        ∃ t, exec i s = .next t ∧ t.statusCode = 2 ∧ t = { s with status := t.status }) ∧
      (∀ syms, syms.length = s.len.toNat → s.src.toNat + s.len.toNat ≤ s.memSize → s.len.toNat ≤ GS →
        s.holdsAt s.src.toNat syms → (∃ u ∈ syms, c.inAlphabet u = false) →
          ∃ t, exec i s = .next t ∧ t.statusCode = 1 ∧ t = { s with status := t.status }) ∧
      (∀ ds : List Nat, ds.length = s.len.toNat → s.src.toNat + s.len.toNat ≤ s.memSize → s.len.toNat ≤ GS →
        (∀ d ∈ ds, d < N) → s.holdsAt s.src.toNat (ds.map c.symbolOf) →
          ∃ t, exec i s = .next t ∧ t.statusCode = 0 ∧ t = { s with status := t.status, res := t.res } ∧
            t.res.toNat =
              if i = .radixdecB10 then ds.foldl (fun n d => n * 10 + d) 0 else ds.foldr (fun d n => d + N * n) 0)

/-- 42_radix.md R124: rendering and parsing are inverse to each other, so a k-symbol form of a value below N^k exists and is
unique. -/
def Obligations.RenderParseInverse : Prop :=
  ∀ c : Codec,
    (∀ v k : Nat, v < c.radix ^ k → parse c (render c v k) = some v) ∧
    (∀ syms, syms.all c.inAlphabet = true → ∃ v, parse c syms = some v ∧ render c v syms.length = syms)

/-- RADIXENC.c and then RADIXDEC.c of the symbols it wrote gives VAL back (42_radix.md R124). -/
def Obligations.RadixencThenRadixdec : Prop :=
  ∀ i j, (i, j) ∈ [(Instr.radixencB10, Instr.radixdecB10), (.radixencB45, .radixdecB45), (.radixencB94, .radixdecB94)] →
    ∀ s t : State, exec i s = .next t → t.statusCode = 0 →
      ∃ u, exec j { t with src := t.dst } = .next u ∧ u.statusCode = 0 ∧ u.res = s.val

/-! ## Groups and codecs -/

/-- 43_groups.md R152: the valid lengths of each codec, by their remainders. -/
def Obligations.LengthGrammar : Prop :=
  ∀ L : Nat,
    (validLen .base10 L ↔ L % 17 ∈ [0, 3, 5, 8, 10, 13, 15]) ∧ (validLen .base45 L ↔ L % 3 ∈ [0, 2]) ∧
    (validLen .base94 L ↔ L % 5 ∈ [0, 2, 3, 4])

/-- 43_groups.md R154, R153: byteLen is defined for the valid lengths and no other, the two length functions are inverse to
each other, and symLen is strictly increasing. -/
def Obligations.LengthLaws : Prop :=
  ∀ c : Codec,
    (∀ L, (byteLen c L).isSome ↔ validLen c L) ∧
    (∀ n, validLen c (symLen c n) ∧ byteLen c (symLen c n) = some n) ∧
    (∀ L n, byteLen c L = some n → symLen c n = L) ∧
    (∀ m n, m < n → symLen c m < symLen c n)

/-- 44_base10.md R183, 45_base45.md R203, 46_base94.md R223: SYMLEN.c, their words, and their result from every state; the
formula fits RES without wrapping. -/
def Obligations.SymlenResult : Prop :=
  ∀ w i GB GS P, (w, i, GB, GS, P) ∈
      [(0x00000023#32, Instr.symlenB10, 7, 17, [0, 3, 5, 8, 10, 13, 15]), (0x00000123#32, .symlenB45, 2, 3, [0, 2]),
        (0x00000223#32, .symlenB94, 4, 5, [0, 2, 3, 4])] →
    decode w = .ok i ∧
    ∀ s : State, ∃ t, exec i s = .next t ∧ t.statusCode = 0 ∧ t = { s with status := t.status, res := t.res } ∧
      t.res.toNat = s.len.toNat / GB * GS + P[s.len.toNat % GB]!

/-- 44_base10.md R184, 45_base45.md R204, 46_base94.md R224: BYTELEN.c, their words: on a length of the grammar the byte
count whose table entry is the remainder, and InvalidEncoding on every other length. -/
def Obligations.BytelenResult : Prop :=
  ∀ w i GS GB tbl, (w, i, GS, GB, tbl) ∈
      [(0x00000024#32, Instr.bytelenB10, 17, 7, [(0, 0), (3, 1), (5, 2), (8, 3), (10, 4), (13, 5), (15, 6)]),
        (0x00000124#32, .bytelenB45, 3, 2, [(0, 0), (2, 1)]),
        (0x00000224#32, .bytelenB94, 5, 4, [(0, 0), (2, 1), (3, 2), (4, 3)])] →
    decode w = .ok i ∧
    ∀ s : State,
      (∀ r, (s.len.toNat % GS, r) ∈ tbl →
        ∃ t, exec i s = .next t ∧ t.statusCode = 0 ∧ t = { s with status := t.status, res := t.res } ∧
          t.res.toNat = s.len.toNat / GS * GB + r) ∧
      ((∀ r, (s.len.toNat % GS, r) ∉ tbl) →
        ∃ t, exec i s = .next t ∧ t.statusCode = 1 ∧ t = { s with status := t.status })

/-- 44_base10.md R180, 45_base45.md R200, 46_base94.md R220: ENCODE.c, their words, where they trap, and their result on
every byte sequence: its encoding at DST (20_memory.md R71: of the bytes as they stood, for the regions may overlap) and
its length in RES. -/
def Obligations.EncodeResult : Prop :=
  ∀ w i c GB GS P, (w, i, c, GB, GS, P) ∈
      [(0x00000020#32, Instr.encodeB10, Codec.base10, 7, 17, [0, 3, 5, 8, 10, 13, 15]),
        (0x00000120#32, .encodeB45, .base45, 2, 3, [0, 2]), (0x00000220#32, .encodeB94, .base94, 4, 5, [0, 2, 3, 4])] →
    decode w = .ok i ∧
    ∀ s : State,
      let m := s.len.toNat / GB * GS + P[s.len.toNat % GB]!
      (s.src.toNat + s.len.toNat > s.memSize ∨ s.dst.toNat + s.cap.toNat > s.memSize ∨ m > s.cap.toNat →
        ∃ t, exec i s = .next t ∧ t.statusCode = 2 ∧ t = { s with status := t.status }) ∧
      (∀ bs : List Byte, bs.length = s.len.toNat → s.src.toNat + s.len.toNat ≤ s.memSize →
        s.dst.toNat + s.cap.toNat ≤ s.memSize → m ≤ s.cap.toNat → s.holdsAt s.src.toNat bs →
          ∃ t, exec i s = .next t ∧ t.statusCode = 0 ∧ t = { s with status := t.status, res := t.res, mem := t.mem } ∧
            t.res.toNat = m ∧ (encodeSeq c bs).length = m ∧ t.holdsAt s.dst.toNat (encodeSeq c bs) ∧
            ∀ a, a < s.dst.toNat ∨ s.dst.toNat + m ≤ a → t.mem.read a = s.mem.read a)

/-- 44_base10.md R180: the base-10 text of a byte sequence: each group of 7 bytes as 17 decimal digits, a last group of s
bytes as P[s] digits, most significant digit first. The byte 0x30 of the digit 0 rests on ASCII (log 15). -/
def Obligations.Base10EncodedText : Prop :=
  (∀ ch rest : List Byte, ch.length = 7 →
    encodeSeq .base10 (ch ++ rest) =
      (List.range 17).map (fun j => BitVec.ofNat 8 (0x30 + beValue ch / 10 ^ (16 - j) % 10)) ++ encodeSeq .base10 rest) ∧
  (∀ ch : List Byte, 0 < ch.length → ch.length < 7 →
    let k := [3, 5, 8, 10, 13, 15][ch.length - 1]!
    encodeSeq .base10 ch = (List.range k).map (fun j => BitVec.ofNat 8 (0x30 + beValue ch / 10 ^ (k - 1 - j) % 10))) ∧
  encodeSeq .base10 [] = []

/-- 45_base45.md R200: the base-45 text of a byte sequence: each pair of bytes as three symbols, a last byte as two, least
significant first. The code units of the symbols rest on ASCII (log 15). -/
def Obligations.Base45EncodedText : Prop :=
  let sym := fun d => ("0123456789ABCDEFGHIJKLMNOPQRSTUVWXYZ $%*+-./:".toList[d]?).elim 0 (fun ch => BitVec.ofNat 8 ch.toNat)
  (∀ (b0 b1 : Byte) (rest : List Byte),
    let v := b0.toNat * 256 + b1.toNat
    encodeSeq .base45 (b0 :: b1 :: rest) =
      sym (v % 45) :: sym (v / 45 % 45) :: sym (v / 2025 % 45) :: encodeSeq .base45 rest) ∧
  (∀ b0 : Byte, encodeSeq .base45 [b0] = [sym (b0.toNat % 45), sym (b0.toNat / 45)]) ∧
  encodeSeq .base45 [] = []

/-- 46_base94.md R220: the base-94 text of a byte sequence: each group of 4 bytes as five symbols, a last group of s bytes
as P[s], symbol j the code unit 33 + ((v div 94^j) mod 94). -/
def Obligations.Base94EncodedText : Prop :=
  (∀ ch rest : List Byte, ch.length = 4 →
    encodeSeq .base94 (ch ++ rest) =
      (List.range 5).map (fun j => BitVec.ofNat 8 (33 + beValue ch / 94 ^ j % 94)) ++ encodeSeq .base94 rest) ∧
  (∀ ch : List Byte, 0 < ch.length → ch.length < 4 →
    encodeSeq .base94 ch =
      (List.range [2, 3, 4][ch.length - 1]!).map (fun j => BitVec.ofNat 8 (33 + beValue ch / 94 ^ j % 94))) ∧
  encodeSeq .base94 [] = []

/-- 43_groups.md R162 (a): every byte sequence encodes to a valid text that decodes to it, for each codec and every
length. -/
def Obligations.CodecRoundTrip : Prop :=
  ∀ (c : Codec) (bs : List Byte), valid c (encodeSeq c bs) = true ∧ decodeSeq c (encodeSeq c bs) = some bs

/-- 43_groups.md R162 (c), (e): the valid texts are exactly the encodings; a text that decodes is the encoding of what it
decodes to; and encoding is injective, so a text encodes at most one byte sequence. -/
def Obligations.ValidTextsAreEncodings : Prop :=
  ∀ c : Codec,
    (∀ t, valid c t = true ↔ ∃ bs, encodeSeq c bs = t) ∧
    (∀ t bs, decodeSeq c t = some bs ↔ encodeSeq c bs = t) ∧
    (∀ bs bs', encodeSeq c bs = encodeSeq c bs' → bs = bs')

/-- 43_groups.md R160: validity is exactly alphabet, length grammar and the range of every run, where a run of k symbols
that stand for s bytes is in range when its value is below 2^(8s). -/
def Obligations.ValidityConjuncts : Prop :=
  ∀ (c : Codec) (t : List Byte),
    valid c t = true ↔
      (∀ u ∈ t, c.inAlphabet u = true) ∧ validLen c t.length ∧
        ∀ ru ∈ chunks c.groupSymbols t, ∃ s v, c.byteCount ru.length = some s ∧ parse c ru = some v ∧ v < 2 ^ (8 * s)

/-- 44_base10.md R181, 45_base45.md R201, 46_base94.md R221: DECODE.c, their words, and every outcome in the order of the
checks: OutOfRange for an illegal region whatever MEM holds; InvalidEncoding for a text that is not valid, whatever the
capacity; OutOfRange for too small a capacity; else the decoded bytes at DST and their number in RES. -/
def Obligations.DecodeResult : Prop :=
  ∀ w i c GS GB tbl, (w, i, c, GS, GB, tbl) ∈
      [(0x00000021#32, Instr.decodeB10, Codec.base10, 17, 7,
          [(0, 0), (3, 1), (5, 2), (8, 3), (10, 4), (13, 5), (15, 6)]),
        (0x00000121#32, .decodeB45, .base45, 3, 2, [(0, 0), (2, 1)]),
        (0x00000221#32, .decodeB94, .base94, 5, 4, [(0, 0), (2, 1), (3, 2), (4, 3)])] →
    decode w = .ok i ∧
    ∀ s : State,
      (s.src.toNat + s.len.toNat > s.memSize ∨ s.dst.toNat + s.cap.toNat > s.memSize →
        ∃ t, exec i s = .next t ∧ t.statusCode = 2 ∧ t = { s with status := t.status }) ∧
      (∀ text, text.length = s.len.toNat → s.src.toNat + s.len.toNat ≤ s.memSize →
        s.dst.toNat + s.cap.toNat ≤ s.memSize → s.holdsAt s.src.toNat text →
          (valid c text = false → ∃ t, exec i s = .next t ∧ t.statusCode = 1 ∧ t = { s with status := t.status }) ∧
          (valid c text = true → ∃ r bs, (s.len.toNat % GS, r) ∈ tbl ∧ decodeSeq c text = some bs ∧
            bs.length = s.len.toNat / GS * GB + r ∧
            (bs.length > s.cap.toNat →
              ∃ t, exec i s = .next t ∧ t.statusCode = 2 ∧ t = { s with status := t.status }) ∧
            (bs.length ≤ s.cap.toNat →
              ∃ t, exec i s = .next t ∧ t.statusCode = 0 ∧
                t = { s with status := t.status, res := t.res, mem := t.mem } ∧ t.res.toNat = bs.length ∧
                t.holdsAt s.dst.toNat bs ∧
                ∀ a, a < s.dst.toNat ∨ s.dst.toNat + bs.length ≤ a → t.mem.read a = s.mem.read a)))

/-- 43_groups.md R162, 60_exceptions.md R241: DECODE.c, in a legal region with room, completes exactly on the texts that
some byte sequence encodes to, with those bytes; every other text is InvalidEncoding. -/
def Obligations.DecodeUndoesEncode : Prop :=
  ∀ i c, (i, c) ∈ [(Instr.decodeB10, Codec.base10), (.decodeB45, .base45), (.decodeB94, .base94)] →
    ∀ (s : State) (text : List Byte), text.length = s.len.toNat → s.src.toNat + s.len.toNat ≤ s.memSize →
      s.dst.toNat + s.cap.toNat ≤ s.memSize → s.holdsAt s.src.toNat text →
        (∀ bs, encodeSeq c bs = text → bs.length ≤ s.cap.toNat →
          ∃ t, exec i s = .next t ∧ t.statusCode = 0 ∧ t.res.toNat = bs.length ∧ t.holdsAt s.dst.toNat bs) ∧
        ((∀ bs, encodeSeq c bs ≠ text) → ∃ t, exec i s = .next t ∧ t.statusCode = 1 ∧ t.res = s.res)

/-- 44_base10.md R182, 45_base45.md R202, 46_base94.md R222: VALIDATE.c, their words; they trap on an illegal region only;
RES is 1 on a valid text and 0 on any other, and the valid texts are those that some byte sequence encodes to
(43_groups.md R162 (c), an inference that the spec marks as its own). -/
def Obligations.ValidateResult : Prop :=
  ∀ w i c, (w, i, c) ∈
      [(0x00000022#32, Instr.validateB10, Codec.base10), (0x00000122#32, .validateB45, .base45),
        (0x00000222#32, .validateB94, .base94)] →
    decode w = .ok i ∧
    ∀ s : State,
      (s.src.toNat + s.len.toNat > s.memSize →
        ∃ t, exec i s = .next t ∧ t.statusCode = 2 ∧ t = { s with status := t.status }) ∧
      (∀ text, text.length = s.len.toNat → s.src.toNat + s.len.toNat ≤ s.memSize → s.holdsAt s.src.toNat text →
        ∃ t, exec i s = .next t ∧ t.statusCode = 0 ∧ t = { s with status := t.status, res := t.res } ∧
          t.res = (if valid c text then 1 else 0) ∧ (t.res = 1 ↔ ∃ bs, encodeSeq c bs = text))

/-- 43_groups.md R162 (d): on the same text, with no OutOfRange in either, DECODE.c leaves InvalidEncoding exactly when
VALIDATE.c leaves RES = 0. -/
def Obligations.ValidationSoundness : Prop :=
  ∀ i j, (i, j) ∈ [(Instr.decodeB10, Instr.validateB10), (.decodeB45, .validateB45), (.decodeB94, .validateB94)] →
    ∀ s t u : State, exec i s = .next t → exec j s = .next u → t.statusCode ≠ 2 → u.statusCode ≠ 2 →
      (t.statusCode = 1 ↔ u.res = 0)

/-- The machine's round trip (43_groups.md R162 (a), on MEM): after an ENCODE.c that completes, a DECODE.c of the text it
wrote, to any legal region with room for the bytes, completes and puts the original bytes there. -/
def Obligations.EncodeThenDecodeRestoresBytes : Prop :=
  ∀ i j, (i, j) ∈ [(Instr.encodeB10, Instr.decodeB10), (.encodeB45, .decodeB45), (.encodeB94, .decodeB94)] →
    ∀ (s t : State) (bs : List Byte) (dst cap : Word), bs.length = s.len.toNat → s.holdsAt s.src.toNat bs →
      exec i s = .next t → t.statusCode = 0 → dst.toNat + cap.toNat ≤ s.memSize → bs.length ≤ cap.toNat →
        ∃ u, exec j { t with src := s.dst, len := BitVec.ofNat 32 t.res.toNat, dst := dst, cap := cap } = .next u ∧
          u.statusCode = 0 ∧ u.res.toNat = bs.length ∧ u.holdsAt dst.toNat bs
end

