-- ==== Sys2Proof/Laws/Int56.lean ====
section
/-! SUPPORT. The laws of the big-endian value and bytes (41_int56.md R100 to R102). -/

namespace Sys2Proof.Machine

@[simp] theorem beBytes_length (v s : Nat) : (beBytes v s).length = s := by simp [beBytes]

@[simp] theorem beBytes_zero (v : Nat) : beBytes v 0 = [] := rfl

@[simp] theorem beValue_nil : beValue [] = 0 := rfl

theorem beValue_cons (b : Byte) (bs : List Byte) : beValue (b :: bs) = b.toNat * 256 ^ bs.length + beValue bs := rfl

theorem beValue_lt (bs : List Byte) : beValue bs < 256 ^ bs.length := by
  induction bs with
  | nil => simp
  | cons b bs ih =>
    have hb : b.toNat < 256 := b.isLt
    rw [beValue_cons, List.length_cons, Nat.pow_succ]
    nlinarith [Nat.pos_of_ne_zero (show 256 ^ bs.length ≠ 0 by positivity)]

theorem pow_two_eight_mul (s : Nat) : 2 ^ (8 * s) = 256 ^ s := by rw [Nat.pow_mul]

/-- The bytes of a value, most significant byte first. -/
theorem beBytes_succ (v s : Nat) : beBytes v (s + 1) = BitVec.ofNat 8 (v / 256 ^ s % 256) :: beBytes v s := by
  unfold beBytes
  rw [List.range_succ_eq_map, List.map_cons, List.map_map]
  congr 1
  apply List.map_congr_left
  intro i _
  simp only [Function.comp, Nat.succ_eq_add_one]
  congr 4
  omega

/-- Only the value below 256^s matters. -/
theorem beBytes_mod (v s : Nat) : beBytes (v % 256 ^ s) s = beBytes v s := by
  unfold beBytes
  apply List.map_congr_left
  intro i hi
  rw [List.mem_range] at hi
  have hs : 256 ^ s = 256 ^ (s - 1 - i) * (256 * 256 ^ i) := by
    rw [← Nat.pow_succ', ← Nat.pow_add]
    congr 1
    omega
  rw [hs, Nat.mod_mul_right_div_self, Nat.mod_mul_right_mod]

/-- 41_int56.md R102, second law; 2^(8s) is 256^s by `pow_two_eight_mul`. -/
theorem beValue_beBytes {v s : Nat} (h : v < 256 ^ s) : beValue (beBytes v s) = v := by
  induction s generalizing v with
  | zero => simp at h; simp [h]
  | succ s ih =>
    have hp : 0 < 256 ^ s := by positivity
    have hd : v / 256 ^ s < 256 := by
      rw [Nat.div_lt_iff_lt_mul hp, ← Nat.pow_succ']
      exact h
    rw [beBytes_succ, beValue_cons, beBytes_length, ← beBytes_mod v s, ih (Nat.mod_lt _ hp), Nat.mod_eq_of_lt hd]
    simp only [BitVec.toNat_ofNat]
    rw [Nat.mod_eq_of_lt (by omega), Nat.mul_comm]
    exact Nat.div_add_mod v (256 ^ s)

/-- 41_int56.md R102, first law. -/
theorem beBytes_beValue (bs : List Byte) : beBytes (beValue bs) bs.length = bs := by
  induction bs with
  | nil => rfl
  | cons b bs ih =>
    have hp : 0 < 256 ^ bs.length := by positivity
    have hlt := beValue_lt bs
    have hb : b.toNat < 256 := b.isLt
    rw [List.length_cons, beBytes_succ, ← beBytes_mod, beValue_cons]
    congr 1
    · rw [Nat.mul_comm, Nat.mul_add_div hp, Nat.div_eq_of_lt hlt, Nat.add_zero, Nat.mod_eq_of_lt hb]
      simp
    · rw [Nat.mul_comm, Nat.mul_add_mod, Nat.mod_eq_of_lt hlt, ih]

/-- Byte i of the 7-byte form is bits 55-8i down to 48-8i (41_int56.md R101). -/
theorem getElem_beBytes {v s i : Nat} (h : i < s) :
    (beBytes v s)[i]? = some (BitVec.ofNat 8 (v / 256 ^ (s - 1 - i))) := by
  have hm : ∀ n : Nat, BitVec.ofNat 8 (n % 256) = BitVec.ofNat 8 n := by
    intro n
    apply BitVec.eq_of_toNat_eq
    simp
  simp [beBytes, h, hm]

end Sys2Proof.Machine
end

