-- ==== Sys2Proof/Laws/Radix.lean ====
section
/-! SUPPORT. The laws of the tables and of the radix converter (10_state.md R44, R46; 42_radix.md R120 to R127). -/

namespace Sys2Proof

theorem radix_pos (c : Codec) : 0 < c.radix := by cases c <;> decide

theorem alphabet_nodup (c : Codec) : c.alphabet.Nodup := by cases c <;> decide +kernel

theorem alphabet_length (c : Codec) : c.alphabet.length = c.radix := by cases c <;> decide +kernel

theorem countTable_nodup (c : Codec) : c.countTable.Nodup := by cases c <;> decide

theorem idxOf?_eq_some_iff_of_nodup {α : Type} [BEq α] [LawfulBEq α] {l : List α} (h : l.Nodup) (a : α) (i : Nat) :
    l.idxOf? a = some i ↔ l[i]? = some a := by
  induction l generalizing i with
  | nil => simp
  | cons x l ih =>
    obtain ⟨hx, hl⟩ := List.nodup_cons.mp h
    rw [List.idxOf?_cons]
    by_cases hxa : x = a
    · subst hxa
      simp only [beq_self_eq_true, if_true, Option.some.injEq]
      constructor
      · rintro rfl; rfl
      · intro hi
        cases i with
        | zero => rfl
        | succ i =>
          rw [List.getElem?_cons_succ] at hi
          exact absurd (List.mem_of_getElem? hi) hx
    · simp only [beq_iff_eq, hxa, if_false]
      cases i with
      | zero => simp [hxa]
      | succ i =>
        rw [List.getElem?_cons_succ, ← ih hl i]
        simp

/-- A code unit has the digit value at whose place the alphabet holds it (10_state.md R46). -/
theorem digitOf_eq_some_iff (c : Codec) (u : Byte) (d : Nat) : c.digitOf u = some d ↔ c.alphabet[d]? = some u :=
  idxOf?_eq_some_iff_of_nodup (alphabet_nodup c) u d

/-- A symbol count has the byte count at whose place the table holds it (10_state.md R44). -/
theorem byteCount_eq_some_iff (c : Codec) (k s : Nat) : c.byteCount k = some s ↔ c.countTable[s]? = some k :=
  idxOf?_eq_some_iff_of_nodup (countTable_nodup c) k s

theorem digitOf_lt {c : Codec} {u : Byte} {d : Nat} (h : c.digitOf u = some d) : d < c.radix := by
  rw [digitOf_eq_some_iff] at h
  rw [← alphabet_length]
  exact (List.getElem?_eq_some_iff.mp h).1

theorem digitOf_symbolOf {c : Codec} {d : Nat} (h : d < c.radix) : c.digitOf (c.symbolOf d) = some d := by
  rw [digitOf_eq_some_iff, Codec.symbolOf]
  rw [← alphabet_length] at h
  simp [h]

theorem symbolOf_of_digitOf {c : Codec} {u : Byte} {d : Nat} (h : c.digitOf u = some d) : c.symbolOf d = u := by
  rw [digitOf_eq_some_iff] at h
  simp [Codec.symbolOf, h]

/-- Every table entry is large enough for its bytes: 2^(8s) <= N^(P[s]) (43_groups.md R156). -/
theorem pow_le_radix_pow (c : Codec) {s : Nat} (h : s ≤ c.groupBytes) :
    256 ^ s ≤ c.radix ^ c.symbolCount s := by
  cases c <;> simp only [Codec.groupBytes] at h <;> interval_cases s <;> decide

theorem byteCount_symbolCount (c : Codec) {s : Nat} (h : s ≤ c.groupBytes) :
    c.byteCount (c.symbolCount s) = some s := by
  cases c <;> simp only [Codec.groupBytes] at h <;> interval_cases s <;> decide

theorem symbolCount_of_byteCount {c : Codec} {k s : Nat} (h : c.byteCount k = some s) :
    c.symbolCount s = k ∧ s ≤ c.groupBytes := by
  rw [byteCount_eq_some_iff] at h
  refine ⟨by simp [Codec.symbolCount, h], ?_⟩
  have hlen : c.countTable.length = c.groupBytes + 1 := by cases c <;> decide
  have := (List.getElem?_eq_some_iff.mp h).1
  omega

namespace Machine

@[simp] theorem digits_length (N v k : Nat) : (digits N v k).length = k := by simp [digits]

theorem digits_zero (N v : Nat) : digits N v 0 = [] := rfl

/-- The digits, least significant first, by repeated mod and div (42_radix.md R121). -/
theorem digits_succ (N v k : Nat) : digits N v (k + 1) = v % N :: digits N (v / N) k := by
  unfold digits
  rw [List.range_succ_eq_map, List.map_cons, List.map_map]
  congr 1
  · simp
  · apply List.map_congr_left
    intro j _
    simp only [Function.comp, Nat.succ_eq_add_one, Nat.pow_succ', Nat.div_div_eq_div_mul]

theorem digits_lt {N v k d : Nat} (hN : 0 < N) (h : d ∈ digits N v k) : d < N := by
  simp only [digits, List.mem_map] at h
  obtain ⟨j, -, rfl⟩ := h
  exact Nat.mod_lt _ hN

theorem digitsValue_digits {N v k : Nat} (hN : 0 < N) (h : v < N ^ k) : digitsValue N (digits N v k) = v := by
  induction k generalizing v with
  | zero => simp at h; simp [h, digits_zero, digitsValue]
  | succ k ih =>
    rw [digits_succ, digitsValue, ih]
    · exact Nat.mod_add_div v N
    · rw [Nat.div_lt_iff_lt_mul hN, ← Nat.pow_succ]
      exact h

theorem digitsValue_lt {N : Nat} {ds : List Nat} (h : ∀ d ∈ ds, d < N) : digitsValue N ds < N ^ ds.length := by
  induction ds with
  | nil => simp [digitsValue]
  | cons d ds ih =>
    have hd := h d (by simp)
    have hds := ih (fun x hx => h x (by simp [hx]))
    rw [digitsValue, List.length_cons, Nat.pow_succ]
    nlinarith

theorem digits_digitsValue {N : Nat} {ds : List Nat} (h : ∀ d ∈ ds, d < N) :
    digits N (digitsValue N ds) ds.length = ds := by
  induction ds with
  | nil => rfl
  | cons d ds ih =>
    have hd := h d (by simp)
    have hN : 0 < N := by omega
    rw [List.length_cons, digits_succ, digitsValue, Nat.add_mul_mod_self_left, Nat.mod_eq_of_lt hd,
      Nat.add_mul_div_left _ _ hN, Nat.div_eq_of_lt hd, Nat.zero_add, ih (fun x hx => h x (by simp [hx]))]

@[simp] theorem inCodecOrder_inCodecOrder {α : Type} (c : Codec) (xs : List α) :
    inCodecOrder c (inCodecOrder c xs) = xs := by
  unfold inCodecOrder
  cases c.order <;> simp

@[simp] theorem inCodecOrder_length {α : Type} (c : Codec) (xs : List α) :
    (inCodecOrder c xs).length = xs.length := by
  unfold inCodecOrder
  cases c.order <;> simp

@[simp] theorem mem_inCodecOrder {α : Type} (c : Codec) (xs : List α) (x : α) :
    x ∈ inCodecOrder c xs ↔ x ∈ xs := by
  unfold inCodecOrder
  cases c.order <;> simp

@[simp] theorem render_length (c : Codec) (v k : Nat) : (render c v k).length = k := by simp [render]

/-- Reading the digit values of rendered digits gives the digits back. -/
theorem mapM_digitOf_map_symbolOf {c : Codec} {ds : List Nat} (h : ∀ d ∈ ds, d < c.radix) :
    (ds.map c.symbolOf).mapM c.digitOf = some ds := by
  induction ds with
  | nil => rfl
  | cons d ds ih =>
    rw [List.map_cons, List.mapM_cons, digitOf_symbolOf (h d (by simp)), ih (fun x hx => h x (by simp [hx]))]
    rfl

/-- Digit values that are read from symbols: each is below the radix, and their symbols are the ones read. -/
theorem of_mapM_digitOf {c : Codec} {syms : List Byte} {ds : List Nat} (h : syms.mapM c.digitOf = some ds) :
    (∀ d ∈ ds, d < c.radix) ∧ ds.map c.symbolOf = syms := by
  induction syms generalizing ds with
  | nil =>
    simp at h
    subst h
    simp
  | cons u syms ih =>
    rw [List.mapM_cons] at h
    cases hd : c.digitOf u with
    | none => simp [hd] at h
    | some d =>
      cases hs : syms.mapM c.digitOf with
      | none => simp [hd, hs] at h
      | some es =>
        simp [hd, hs] at h
        subst h
        obtain ⟨h1, h2⟩ := ih hs
        refine ⟨?_, ?_⟩
        · intro x hx
          rcases List.mem_cons.mp hx with rfl | hx
          · exact digitOf_lt hd
          · exact h1 x hx
        · rw [List.map_cons, symbolOf_of_digitOf hd, h2]

/-- Every symbol of a text is in the alphabet exactly when its digit values can be read. -/
theorem mapM_digitOf_isSome (c : Codec) (syms : List Byte) :
    (syms.mapM c.digitOf).isSome = syms.all c.inAlphabet := by
  induction syms with
  | nil => simp
  | cons u syms ih =>
    rw [List.mapM_cons, List.all_cons, ← ih]
    unfold Codec.inAlphabet
    cases c.digitOf u <;> cases syms.mapM c.digitOf <;> simp

theorem parse_isSome (c : Codec) (syms : List Byte) : (parse c syms).isSome = syms.all c.inAlphabet := by
  rw [parse, Option.isSome_map, mapM_digitOf_isSome]

/-- A parsed value is below N^k, and rendering it gives the symbols back (42_radix.md R123, R124). -/
theorem of_parse {c : Codec} {syms : List Byte} {v : Nat} (h : parse c syms = some v) :
    v < c.radix ^ syms.length ∧ render c v syms.length = syms := by
  unfold parse at h
  cases hm : syms.mapM c.digitOf with
  | none => simp [hm] at h
  | some ds =>
    simp only [hm, Option.map_some, Option.some.injEq] at h
    obtain ⟨hlt, hmap⟩ := of_mapM_digitOf hm
    have hlen : syms.length = (inCodecOrder c ds).length := by rw [← hmap]; simp
    have hlt' : ∀ d ∈ inCodecOrder c ds, d < c.radix := fun d hd => hlt d (by simpa using hd)
    subst h
    rw [hlen]
    refine ⟨digitsValue_lt hlt', ?_⟩
    rw [render, digits_digitsValue hlt', inCodecOrder_inCodecOrder, hmap]

/-- Every symbol that rendering gives is in the alphabet. -/
theorem render_all_inAlphabet (c : Codec) (v k : Nat) : (render c v k).all c.inAlphabet = true := by
  rw [List.all_eq_true]
  intro u hu
  simp only [render, List.mem_map, mem_inCodecOrder] at hu
  obtain ⟨d, hd, rfl⟩ := hu
  simp [Codec.inAlphabet, digitOf_symbolOf (digits_lt (radix_pos c) hd)]

end Machine

end Sys2Proof
end

