-- ==== Sys2Proof/Laws/Groups.lean ====
section
/-! SUPPORT. The laws of the length functions, of the split into groups, and of one group's encoding and decoding (43_groups.md R151 to R161). -/

namespace Sys2Proof.Machine

theorem groupBytes_pos (c : Codec) : 0 < c.groupBytes := by cases c <;> decide

theorem groupSymbols_pos (c : Codec) : 0 < c.groupSymbols := by cases c <;> decide

theorem symbolCount_groupBytes (c : Codec) : c.symbolCount c.groupBytes = c.groupSymbols := by cases c <;> decide

theorem symbolCount_lt {c : Codec} {s : Nat} (h : s < c.groupBytes) : c.symbolCount s < c.groupSymbols := by
  cases c <;> simp only [Codec.groupBytes] at h <;> interval_cases s <;> decide

theorem symbolCount_pos {c : Codec} {s : Nat} (h0 : 0 < s) (h : s ≤ c.groupBytes) : 0 < c.symbolCount s := by
  cases c <;> simp only [Codec.groupBytes] at h <;> interval_cases s <;> decide

/-- A remainder is a valid length exactly when a byte count belongs to it (43_groups.md R152, R153). -/
theorem byteCount_isSome_iff {c : Codec} {k : Nat} (h : k < c.groupSymbols) :
    (c.byteCount k).isSome ↔ k = 0 ∨ k ∈ c.partialTable := by
  cases c <;> simp only [Codec.groupSymbols] at h <;> interval_cases k <;> decide

/-- `byteLen` is defined exactly for the valid lengths (43_groups.md R152, R153). -/
theorem byteLen_isSome_iff (c : Codec) (L : Nat) : (byteLen c L).isSome ↔ validLen c L := by
  rw [byteLen, Option.isSome_map]
  exact byteCount_isSome_iff (Nat.mod_lt _ (groupSymbols_pos c))

theorem byteLen_eq_none_iff (c : Codec) (L : Nat) : byteLen c L = none ↔ ¬ validLen c L := by
  rw [← byteLen_isSome_iff, Option.not_isSome_iff_eq_none]

@[simp] theorem symLen_zero (c : Codec) : symLen c 0 = 0 := by cases c <;> rfl

/-- One more full group adds GS symbols. -/
theorem symLen_add (c : Codec) (n : Nat) : symLen c (c.groupBytes + n) = c.groupSymbols + symLen c n := by
  unfold symLen
  rw [Nat.add_div_left _ (groupBytes_pos c), Nat.add_mod_left, Nat.succ_mul]
  omega

theorem symLen_of_lt {c : Codec} {n : Nat} (h : n < c.groupBytes) : symLen c n = c.symbolCount n := by
  simp [symLen, Nat.div_eq_of_lt h, Nat.mod_eq_of_lt h]

/-- One more full run adds GB bytes. -/
theorem byteLen_add (c : Codec) (L : Nat) :
    byteLen c (c.groupSymbols + L) = (byteLen c L).map (fun n => c.groupBytes + n) := by
  unfold byteLen
  rw [Nat.add_mod_left, Nat.add_div_left _ (groupSymbols_pos c), Option.map_map]
  congr 1
  funext r
  simp only [Function.comp, Nat.succ_mul]
  omega

theorem byteLen_of_lt {c : Codec} {L : Nat} (h : L < c.groupSymbols) : byteLen c L = c.byteCount L := by
  simp [byteLen, Nat.div_eq_of_lt h, Nat.mod_eq_of_lt h]

section Chunks

variable {α : Type} {g : Nat}

@[simp] theorem chunks_nil (g : Nat) : chunks g ([] : List α) = [] := by simp [chunks]

/-- A sequence shorter than a group is one partial piece. -/
theorem chunks_short {xs : List α} (h0 : xs ≠ []) (h : xs.length < g) : chunks g xs = [xs] := by
  have hl : xs.length ≠ 0 := by simpa using h0
  simp [chunks, Nat.div_eq_of_lt h, Nat.mod_eq_of_lt h, hl]

/-- A full group in front is the first piece. -/
theorem chunks_append {a xs : List α} (hg : 0 < g) (ha : a.length = g) :
    chunks g (a ++ xs) = a :: chunks g xs := by
  have hdiv : (a ++ xs).length / g = xs.length / g + 1 := by
    rw [List.length_append, ha, Nat.add_div_left _ hg]
  have hmod : (a ++ xs).length % g = xs.length % g := by
    rw [List.length_append, ha, Nat.add_mod_left]
  have hdrop : ∀ i, (a ++ xs).drop ((i + 1) * g) = xs.drop (i * g) := by
    intro i
    rw [Nat.succ_mul, Nat.add_comm, ← ha, ← List.drop_drop, List.drop_left]
  unfold chunks
  rw [hdiv, hmod, List.range_succ_eq_map, List.map_cons, List.map_map, hdrop]
  have h1 : ((a ++ xs).drop (0 * g)).take g = a := by
    rw [Nat.zero_mul, List.drop_zero, ← ha, List.take_left]
  have h2 : ((fun i => ((a ++ xs).drop (i * g)).take g) ∘ Nat.succ) = fun i => (xs.drop (i * g)).take g := by
    funext i
    simp only [Function.comp, Nat.succ_eq_add_one, hdrop]
  rw [h1, h2]
  rfl

/-- Induction along the split: nothing, one partial piece, or a full piece in front. -/
theorem chunks_induction {P : List α → Prop} (hg : 0 < g) (nil : P [])
    (short : ∀ xs, xs ≠ [] → xs.length < g → P xs)
    (full : ∀ a xs, a.length = g → P xs → P (a ++ xs)) : ∀ xs, P xs := by
  intro xs
  induction hn : xs.length using Nat.strong_induction_on generalizing xs with
  | _ n ih =>
    by_cases h0 : xs = []
    · subst h0; exact nil
    · by_cases h : xs.length < g
      · exact short xs h0 h
      · rw [← List.take_append_drop g xs]
        apply full _ _ (by simp; omega)
        apply ih (xs.drop g).length
        · have : xs.length ≠ 0 := by simpa using h0
          rw [List.length_drop]
          omega
        · rfl

/-- The pieces, one after the other, are the sequence. -/
theorem flatten_chunks (hg : 0 < g) (xs : List α) : (chunks g xs).flatten = xs := by
  induction xs using chunks_induction hg with
  | nil => simp
  | short xs h0 h => simp [chunks_short h0 h]
  | full a xs ha ih => simp [chunks_append hg ha, ih]

end Chunks

/-- A group of bytes renders to the symbols its table entry says (43_groups.md R156). -/
@[simp] theorem encodeGroup_length (c : Codec) (ch : List Byte) :
    (encodeGroup c ch).length = c.symbolCount ch.length := by simp [encodeGroup]

@[simp] theorem encodeSeq_nil (c : Codec) : encodeSeq c [] = [] := by simp [encodeSeq]

theorem encodeSeq_short {c : Codec} {bs : List Byte} (h0 : bs ≠ []) (h : bs.length < c.groupBytes) :
    encodeSeq c bs = encodeGroup c bs := by simp [encodeSeq, chunks_short h0 h]

theorem encodeSeq_append {c : Codec} {a bs : List Byte} (ha : a.length = c.groupBytes) :
    encodeSeq c (a ++ bs) = encodeGroup c a ++ encodeSeq c bs := by
  simp [encodeSeq, chunks_append (groupBytes_pos c) ha]

/-- A run that decodes consists of alphabet members and has a length of the table. -/
theorem of_decodeGroup {c : Codec} {ru bs : List Byte} (h : decodeGroup c ru = some bs) :
    ∃ v, parse c ru = some v ∧ c.byteCount ru.length = some bs.length ∧ v < 2 ^ (8 * bs.length) ∧
      bs = beBytes v bs.length := by
  unfold decodeGroup at h
  split at h
  · rename_i s v hs hv
    split at h
    · cases h
    · simp only [Option.some.injEq] at h
      subst h
      exact ⟨v, hv, by simpa using hs, by simpa using by omega, by simp⟩
  · cases h

theorem decodeGroup_all_inAlphabet {c : Codec} {ru : List Byte} (h : (decodeGroup c ru).isSome) :
    ru.all c.inAlphabet = true := by
  obtain ⟨bs, hbs⟩ := Option.isSome_iff_exists.mp h
  obtain ⟨v, hv, -⟩ := of_decodeGroup hbs
  rw [← parse_isSome, hv]
  rfl

theorem decodeGroup_byteCount {c : Codec} {ru : List Byte} (h : (decodeGroup c ru).isSome) :
    (c.byteCount ru.length).isSome := by
  obtain ⟨bs, hbs⟩ := Option.isSome_iff_exists.mp h
  obtain ⟨v, -, hk, -⟩ := of_decodeGroup hbs
  rw [hk]
  rfl

@[simp] theorem valid_nil (c : Codec) : valid c [] = true := by simp [valid]

/-- A text shorter than a run is valid exactly when it decodes as a group. -/
theorem valid_short {c : Codec} {t : List Byte} (h0 : t ≠ []) (h : t.length < c.groupSymbols) :
    valid c t = (decodeGroup c t).isSome := by
  rw [Bool.eq_iff_iff]
  constructor
  · intro hv
    simp only [valid, chunks_short h0 h, Bool.and_eq_true] at hv
    simpa using hv.2
  · intro hd
    simp only [valid, chunks_short h0 h, Bool.and_eq_true, decide_eq_true_eq]
    refine ⟨⟨decodeGroup_all_inAlphabet hd, ?_⟩, by simpa using hd⟩
    rw [validLen, Nat.mod_eq_of_lt h]
    exact (byteCount_isSome_iff h).mp (decodeGroup_byteCount hd)

/-- A text with a full run in front is valid exactly when the run decodes and the rest is valid. -/
theorem valid_append {c : Codec} {a t : List Byte} (ha : a.length = c.groupSymbols) :
    valid c (a ++ t) = ((decodeGroup c a).isSome && valid c t) := by
  rw [Bool.eq_iff_iff]
  simp only [valid, chunks_append (groupSymbols_pos c) ha, List.all_append, List.length_append, ha, validLen,
    Nat.add_mod_left, Bool.and_eq_true, decide_eq_true_eq, List.all_cons]
  constructor
  · rintro ⟨⟨⟨-, h1⟩, h2⟩, h3, h4⟩
    exact ⟨h3, ⟨h1, h2⟩, h4⟩
  · rintro ⟨h3, ⟨h1, h2⟩, h4⟩
    exact ⟨⟨⟨decodeGroup_all_inAlphabet h3, h1⟩, h2⟩, h3, h4⟩

@[simp] theorem decodeSeq_nil (c : Codec) : decodeSeq c [] = some [] := by simp [decodeSeq]

theorem decodeSeq_short {c : Codec} {t : List Byte} (h0 : t ≠ []) (h : t.length < c.groupSymbols) :
    decodeSeq c t = decodeGroup c t := by
  unfold decodeSeq
  rw [valid_short h0 h, chunks_short h0 h]
  cases hd : decodeGroup c t with
  | none => simp
  | some bs => simp [hd]

theorem decodeSeq_append {c : Codec} {a t : List Byte} (ha : a.length = c.groupSymbols) :
    decodeSeq c (a ++ t) = (decodeGroup c a).bind (fun x => (decodeSeq c t).map (fun y => x ++ y)) := by
  unfold decodeSeq
  rw [valid_append ha, chunks_append (groupSymbols_pos c) ha, List.mapM_cons]
  cases hd : decodeGroup c a with
  | none => simp
  | some bs =>
    cases hv : valid c t with
    | false => simp
    | true => cases (chunks c.groupSymbols t).mapM (decodeGroup c) <;> simp

/-- `decodeSeq` succeeds exactly on the valid texts (43_groups.md R161). -/
theorem decodeSeq_isSome (c : Codec) (t : List Byte) : (decodeSeq c t).isSome = valid c t := by
  induction t using chunks_induction (groupSymbols_pos c) with
  | nil => simp
  | short t h0 h => rw [decodeSeq_short h0 h, valid_short h0 h]
  | full a t ha ih =>
    rw [decodeSeq_append ha, valid_append ha, ← ih]
    cases decodeGroup c a <;> cases decodeSeq c t <;> simp

theorem valid_validLen {c : Codec} {t : List Byte} (h : valid c t = true) : validLen c t.length := by
  simp only [valid, Bool.and_eq_true, decide_eq_true_eq] at h
  exact h.1.2

/-- Decoding a group of bytes that was encoded gives the bytes back. -/
theorem decodeGroup_encodeGroup {c : Codec} {ch : List Byte} (h : ch.length ≤ c.groupBytes) :
    decodeGroup c (encodeGroup c ch) = some ch := by
  have hlt : beValue ch < c.radix ^ c.symbolCount ch.length :=
    Nat.lt_of_lt_of_le (beValue_lt ch) (pow_le_radix_pow c h)
  have hparse : parse c (encodeGroup c ch) = some (beValue ch) := by
    unfold encodeGroup render parse
    rw [mapM_digitOf_map_symbolOf (by
      intro d hd
      exact digits_lt (radix_pos c) (by simpa using hd))]
    simp [digitsValue_digits (radix_pos c) hlt]
  unfold decodeGroup
  rw [encodeGroup_length, byteCount_symbolCount c h, hparse]
  have hv := beValue_lt ch
  rw [← pow_two_eight_mul] at hv
  simp only [beBytes_beValue]
  rw [if_neg (by omega)]

/-- Encoding what a run decodes to gives the run back. -/
theorem encodeGroup_of_decodeGroup {c : Codec} {ru bs : List Byte} (h : decodeGroup c ru = some bs) :
    encodeGroup c bs = ru := by
  obtain ⟨v, hv, hk, hlt, hbs⟩ := of_decodeGroup h
  have hcount := (symbolCount_of_byteCount hk).1
  rw [pow_two_eight_mul] at hlt
  unfold encodeGroup
  rw [hcount]
  have hval : beValue bs = v := by
    rw [hbs]
    exact beValue_beBytes hlt
  rw [hval]
  exact (of_parse hv).2

end Sys2Proof.Machine
end

