-- ==== Sys2Proof/Laws/State.lean ====
section
/-! SUPPORT. One lemma per field per update of State, each true by rfl, and the laws of STATUS.CODE. -/

namespace Sys2Proof.Machine

variable (s : State)

@[simp] theorem setCode_cmd (c : BitVec 4) : (s.setCode c).cmd = s.cmd := rfl
@[simp] theorem setCode_status (c : BitVec 4) : (s.setCode c).status = (s.status &&& 0xFFFFFFF0#32) ||| c.setWidth 32 := rfl
@[simp] theorem setCode_src (c : BitVec 4) : (s.setCode c).src = s.src := rfl
@[simp] theorem setCode_len (c : BitVec 4) : (s.setCode c).len = s.len := rfl
@[simp] theorem setCode_dst (c : BitVec 4) : (s.setCode c).dst = s.dst := rfl
@[simp] theorem setCode_cap (c : BitVec 4) : (s.setCode c).cap = s.cap := rfl
@[simp] theorem setCode_off (c : BitVec 4) : (s.setCode c).off = s.off := rfl
@[simp] theorem setCode_val (c : BitVec 4) : (s.setCode c).val = s.val := rfl
@[simp] theorem setCode_res (c : BitVec 4) : (s.setCode c).res = s.res := rfl
@[simp] theorem setCode_memSize (c : BitVec 4) : (s.setCode c).memSize = s.memSize := rfl
@[simp] theorem setCode_mem (c : BitVec 4) : (s.setCode c).mem = s.mem := rfl
@[simp] theorem setCode_host (c : BitVec 4) : (s.setCode c).host = s.host := rfl

@[simp] theorem setRes_cmd (n : Nat) : (s.setRes n).cmd = s.cmd := rfl
@[simp] theorem setRes_status (n : Nat) : (s.setRes n).status = s.status := rfl
@[simp] theorem setRes_src (n : Nat) : (s.setRes n).src = s.src := rfl
@[simp] theorem setRes_len (n : Nat) : (s.setRes n).len = s.len := rfl
@[simp] theorem setRes_dst (n : Nat) : (s.setRes n).dst = s.dst := rfl
@[simp] theorem setRes_cap (n : Nat) : (s.setRes n).cap = s.cap := rfl
@[simp] theorem setRes_off (n : Nat) : (s.setRes n).off = s.off := rfl
@[simp] theorem setRes_val (n : Nat) : (s.setRes n).val = s.val := rfl
@[simp] theorem setRes_res (n : Nat) : (s.setRes n).res = BitVec.ofNat 64 n := rfl
@[simp] theorem setRes_memSize (n : Nat) : (s.setRes n).memSize = s.memSize := rfl
@[simp] theorem setRes_mem (n : Nat) : (s.setRes n).mem = s.mem := rfl
@[simp] theorem setRes_host (n : Nat) : (s.setRes n).host = s.host := rfl

@[simp] theorem memWrite_cmd (a : Nat) (bs : List Byte) : (s.memWrite a bs).cmd = s.cmd := rfl
@[simp] theorem memWrite_status (a : Nat) (bs : List Byte) : (s.memWrite a bs).status = s.status := rfl
@[simp] theorem memWrite_src (a : Nat) (bs : List Byte) : (s.memWrite a bs).src = s.src := rfl
@[simp] theorem memWrite_len (a : Nat) (bs : List Byte) : (s.memWrite a bs).len = s.len := rfl
@[simp] theorem memWrite_dst (a : Nat) (bs : List Byte) : (s.memWrite a bs).dst = s.dst := rfl
@[simp] theorem memWrite_cap (a : Nat) (bs : List Byte) : (s.memWrite a bs).cap = s.cap := rfl
@[simp] theorem memWrite_off (a : Nat) (bs : List Byte) : (s.memWrite a bs).off = s.off := rfl
@[simp] theorem memWrite_val (a : Nat) (bs : List Byte) : (s.memWrite a bs).val = s.val := rfl
@[simp] theorem memWrite_res (a : Nat) (bs : List Byte) : (s.memWrite a bs).res = s.res := rfl
@[simp] theorem memWrite_memSize (a : Nat) (bs : List Byte) : (s.memWrite a bs).memSize = s.memSize := rfl
@[simp] theorem memWrite_mem (a : Nat) (bs : List Byte) : (s.memWrite a bs).mem = s.mem.writeBytes a bs := rfl
@[simp] theorem memWrite_host (a : Nat) (bs : List Byte) : (s.memWrite a bs).host = s.host := rfl

@[simp] theorem setCmd_cmd (w : Word) : (s.setCmd w).cmd = w := rfl
@[simp] theorem setCmd_status (w : Word) : (s.setCmd w).status = s.status := rfl
@[simp] theorem setCmd_src (w : Word) : (s.setCmd w).src = s.src := rfl
@[simp] theorem setCmd_len (w : Word) : (s.setCmd w).len = s.len := rfl
@[simp] theorem setCmd_dst (w : Word) : (s.setCmd w).dst = s.dst := rfl
@[simp] theorem setCmd_cap (w : Word) : (s.setCmd w).cap = s.cap := rfl
@[simp] theorem setCmd_off (w : Word) : (s.setCmd w).off = s.off := rfl
@[simp] theorem setCmd_val (w : Word) : (s.setCmd w).val = s.val := rfl
@[simp] theorem setCmd_res (w : Word) : (s.setCmd w).res = s.res := rfl
@[simp] theorem setCmd_memSize (w : Word) : (s.setCmd w).memSize = s.memSize := rfl
@[simp] theorem setCmd_mem (w : Word) : (s.setCmd w).mem = s.mem := rfl
@[simp] theorem setCmd_host (w : Word) : (s.setCmd w).host = s.host := rfl

@[simp] theorem advanceHost_cmd (rest : List HostOp) : (s.advanceHost rest).cmd = s.cmd := rfl
@[simp] theorem advanceHost_status (rest : List HostOp) : (s.advanceHost rest).status = s.status := rfl
@[simp] theorem advanceHost_src (rest : List HostOp) : (s.advanceHost rest).src = s.src := rfl
@[simp] theorem advanceHost_len (rest : List HostOp) : (s.advanceHost rest).len = s.len := rfl
@[simp] theorem advanceHost_dst (rest : List HostOp) : (s.advanceHost rest).dst = s.dst := rfl
@[simp] theorem advanceHost_cap (rest : List HostOp) : (s.advanceHost rest).cap = s.cap := rfl
@[simp] theorem advanceHost_off (rest : List HostOp) : (s.advanceHost rest).off = s.off := rfl
@[simp] theorem advanceHost_val (rest : List HostOp) : (s.advanceHost rest).val = s.val := rfl
@[simp] theorem advanceHost_res (rest : List HostOp) : (s.advanceHost rest).res = s.res := rfl
@[simp] theorem advanceHost_memSize (rest : List HostOp) : (s.advanceHost rest).memSize = s.memSize := rfl
@[simp] theorem advanceHost_mem (rest : List HostOp) : (s.advanceHost rest).mem = s.mem := rfl
@[simp] theorem advanceHost_host (rest : List HostOp) : (s.advanceHost rest).host = { s.host with pending := rest, pc := s.host.pc + 1 } := rfl

@[simp] theorem pushHost_cmd (op : HostOp) : (s.pushHost op).cmd = s.cmd := rfl
@[simp] theorem pushHost_status (op : HostOp) : (s.pushHost op).status = s.status := rfl
@[simp] theorem pushHost_src (op : HostOp) : (s.pushHost op).src = s.src := rfl
@[simp] theorem pushHost_len (op : HostOp) : (s.pushHost op).len = s.len := rfl
@[simp] theorem pushHost_dst (op : HostOp) : (s.pushHost op).dst = s.dst := rfl
@[simp] theorem pushHost_cap (op : HostOp) : (s.pushHost op).cap = s.cap := rfl
@[simp] theorem pushHost_off (op : HostOp) : (s.pushHost op).off = s.off := rfl
@[simp] theorem pushHost_val (op : HostOp) : (s.pushHost op).val = s.val := rfl
@[simp] theorem pushHost_res (op : HostOp) : (s.pushHost op).res = s.res := rfl
@[simp] theorem pushHost_memSize (op : HostOp) : (s.pushHost op).memSize = s.memSize := rfl
@[simp] theorem pushHost_mem (op : HostOp) : (s.pushHost op).mem = s.mem := rfl
@[simp] theorem pushHost_host (op : HostOp) : (s.pushHost op).host = { s.host with pending := op :: s.host.pending } := rfl

@[simp] theorem recordValue_cmd (v : DWord) : (s.recordValue v).cmd = s.cmd := rfl
@[simp] theorem recordValue_status (v : DWord) : (s.recordValue v).status = s.status := rfl
@[simp] theorem recordValue_src (v : DWord) : (s.recordValue v).src = s.src := rfl
@[simp] theorem recordValue_len (v : DWord) : (s.recordValue v).len = s.len := rfl
@[simp] theorem recordValue_dst (v : DWord) : (s.recordValue v).dst = s.dst := rfl
@[simp] theorem recordValue_cap (v : DWord) : (s.recordValue v).cap = s.cap := rfl
@[simp] theorem recordValue_off (v : DWord) : (s.recordValue v).off = s.off := rfl
@[simp] theorem recordValue_val (v : DWord) : (s.recordValue v).val = s.val := rfl
@[simp] theorem recordValue_res (v : DWord) : (s.recordValue v).res = s.res := rfl
@[simp] theorem recordValue_memSize (v : DWord) : (s.recordValue v).memSize = s.memSize := rfl
@[simp] theorem recordValue_mem (v : DWord) : (s.recordValue v).mem = s.mem := rfl
@[simp] theorem recordValue_host (v : DWord) : (s.recordValue v).host = { s.host with record := s.host.record ++ [v] } := rfl

@[simp] theorem recordFree_cmd : s.recordFree.cmd = s.cmd := rfl
@[simp] theorem recordFree_status : s.recordFree.status = s.status := rfl
@[simp] theorem recordFree_src : s.recordFree.src = s.src := rfl
@[simp] theorem recordFree_len : s.recordFree.len = s.len := rfl
@[simp] theorem recordFree_dst : s.recordFree.dst = s.dst := rfl
@[simp] theorem recordFree_cap : s.recordFree.cap = s.cap := rfl
@[simp] theorem recordFree_off : s.recordFree.off = s.off := rfl
@[simp] theorem recordFree_val : s.recordFree.val = s.val := rfl
@[simp] theorem recordFree_res : s.recordFree.res = s.res := rfl
@[simp] theorem recordFree_memSize : s.recordFree.memSize = s.memSize := rfl
@[simp] theorem recordFree_mem : s.recordFree.mem = s.mem := rfl
@[simp] theorem recordFree_host : s.recordFree.host = { s.host with record := s.host.record ++ [(Config.freeByte s.host.freeReads).setWidth 64], freeReads := s.host.freeReads + 1 } := rfl

/-- A new code is what STATUS.CODE then holds. -/
@[simp] theorem statusCode_setCode (c : BitVec 4) : (s.setCode c).statusCode = c := by
  unfold State.statusCode
  ext i hi
  have h : i = 0 ∨ i = 1 ∨ i = 2 ∨ i = 3 := by omega
  rcases h with rfl | rfl | rfl | rfl <;> simp

/-- Writing the code leaves STATUS[31:4] alone. -/
@[simp] theorem status_high_setCode (c : BitVec 4) :
    (s.setCode c).status &&& 0xFFFFFFF0#32 = s.status &&& 0xFFFFFFF0#32 := by
  have h : c.setWidth 32 &&& 0xFFFFFFF0#32 = 0#32 := by revert c; decide
  rw [setCode_status, BitVec.and_comm, BitVec.and_or_distrib_left, BitVec.and_comm _ (c.setWidth 32), h,
    BitVec.or_zero, BitVec.and_comm, BitVec.and_assoc, BitVec.and_self]

/-- The last code written is the one that stays. -/
@[simp] theorem setCode_setCode (c d : BitVec 4) : (s.setCode c).setCode d = s.setCode d := by
  have h := status_high_setCode s c
  simp only [State.setCode] at h ⊢
  rw [h]

/-- Where STATUS[31:4] is 0, STATUS after a write of the code is that code. -/
theorem status_setCode_toNat (c : BitVec 4) (h : s.status.toNat < 16) : (s.setCode c).status.toNat = c.toNat := by
  have h0 : s.status &&& 0xFFFFFFF0#32 = 0#32 := by
    have hs : s.status = (BitVec.ofNat 4 s.status.toNat).setWidth 32 := by
      apply BitVec.eq_of_toNat_eq
      simp
      omega
    rw [hs]
    generalize BitVec.ofNat 4 s.status.toNat = x
    revert x
    decide
  simp only [setCode_status, h0, BitVec.zero_or, BitVec.toNat_setWidth]
  omega

/-- Where STATUS[31:4] is 0, STATUS is its code. -/
theorem status_toNat_eq_code (h : s.status.toNat < 16) : s.status.toNat = s.statusCode.toNat := by
  unfold State.statusCode
  simp
  omega

/-- Writing the code that stands there changes nothing. -/
@[simp] theorem setCode_statusCode : s.setCode s.statusCode = s := by
  have h : (s.status &&& 0xFFFFFFF0#32) ||| (s.statusCode.setWidth 32) = s.status := by
    unfold State.statusCode
    have hm : s.status.extractLsb' 0 4 = s.status.setWidth 4 := by
      apply BitVec.eq_of_toNat_eq; simp
    have hl : (s.status.setWidth 4).setWidth 32 = s.status &&& 0xF#32 := by
      apply BitVec.eq_of_toNat_eq
      simp [BitVec.toNat_and]
      have := Nat.and_two_pow_sub_one_eq_mod s.status.toNat 4
      norm_num at this
      omega
    rw [hm, hl, ← BitVec.and_or_distrib_left]
    have : (0xFFFFFFF0#32 ||| 0xF#32) = BitVec.allOnes 32 := by decide
    rw [this, BitVec.and_allOnes]
  unfold State.setCode
  rw [h]

@[simp] theorem sourceRegion_base : s.sourceRegion.base = s.srcN := rfl
@[simp] theorem sourceRegion_length : s.sourceRegion.length = s.lenN := rfl
@[simp] theorem destRegion_base : s.destRegion.base = s.dstN := rfl
@[simp] theorem destRegion_length : s.destRegion.length = s.capN := rfl

/-- The legality of the source region, in the operands (20_memory.md R64). -/
theorem sourceLegal_iff : s.sourceLegal ↔ s.srcN + s.lenN ≤ s.memSize := Iff.rfl

/-- The legality of the destination region, in the operands (20_memory.md R64). -/
theorem destLegal_iff : s.destLegal ↔ s.dstN + s.capN ≤ s.memSize := Iff.rfl

/-! The frame of each way a command can end. Cite these rather than rfl on a computed result, which the unifier would
evaluate. -/

/-- Raising changes STATUS alone. -/
theorem setCode_frame (c : BitVec 4) : s.setCode c = { s with status := (s.setCode c).status } := rfl

/-- Completing with a result in RES changes STATUS and RES alone. -/
theorem setRes_setCode_frame (n : Nat) (c : BitVec 4) :
    (s.setRes n).setCode c =
      { s with status := ((s.setRes n).setCode c).status, res := ((s.setRes n).setCode c).res } := rfl

/-- Completing with stored bytes changes STATUS and MEM alone. -/
theorem memWrite_setCode_frame (a : Nat) (bs : List Byte) (c : BitVec 4) :
    (s.memWrite a bs).setCode c =
      { s with status := ((s.memWrite a bs).setCode c).status, mem := ((s.memWrite a bs).setCode c).mem } := rfl

/-- Completing with stored bytes and a result changes STATUS, MEM and RES alone. -/
theorem memWrite_setRes_setCode_frame (a : Nat) (bs : List Byte) (n : Nat) (c : BitVec 4) :
    ((s.memWrite a bs).setRes n).setCode c =
      { s with
          status := (((s.memWrite a bs).setRes n).setCode c).status
          res := (((s.memWrite a bs).setRes n).setCode c).res
          mem := (((s.memWrite a bs).setRes n).setCode c).mem } := rfl

/-- The codes that a command can leave: 0 from completing, 1 to 3 from raising (60_exceptions.md R240). -/
theorem code_lt_four (e : Exn) : e.code.toNat < 4 := by cases e <;> decide

@[simp] theorem code_ne_codeOk (e : Exn) : e.code ≠ codeOk := by cases e <;> decide

end Sys2Proof.Machine
end

