-- ==== Sys2Proof/Laws/Memory.lean ====
section
/-! SUPPORT. The laws of MEM: read after write, what a write leaves alone, the canonical form, and what a block read answers. -/

namespace Sys2Proof.Machine

theorem read_write_same (m : Memory) (a : Nat) (b : Byte) : (m.write a b).read a = some b := by
  induction m with
  | nil => simp [Memory.write, Memory.read]
  | cons cell rest ih =>
    obtain ⟨x, y⟩ := cell
    simp only [Memory.write]
    split
    · simp [Memory.read]
    · split
      · simp [Memory.read]
      · rename_i h
        simp [Memory.read, ih, Ne.symm h]

theorem read_write_other (m : Memory) {a a' : Nat} (b : Byte) (h : a' ≠ a) : (m.write a b).read a' = m.read a' := by
  induction m with
  | nil => simp [Memory.write, Memory.read, Ne.symm h]
  | cons cell rest ih =>
    obtain ⟨x, y⟩ := cell
    simp only [Memory.write]
    split
    · simp [Memory.read, Ne.symm h]
    · split
      · rename_i hax
        subst hax
        simp [Memory.read, Ne.symm h]
      · simp [Memory.read, ih]

theorem read_write (m : Memory) (a a' : Nat) (b : Byte) :
    (m.write a b).read a' = if a' = a then some b else m.read a' := by
  split
  · next h => subst h; exact read_write_same m a' b
  · next h => exact read_write_other m b h

/-- A block write changes the bytes it covers, to the bytes given, and no other. -/
theorem read_writeBytes (m : Memory) (a a' : Nat) (bs : List Byte) :
    (m.writeBytes a bs).read a' = if a ≤ a' ∧ a' < a + bs.length then bs[a' - a]? else m.read a' := by
  induction bs generalizing m a with
  | nil => simp [Memory.writeBytes]
  | cons b bs ih =>
    simp only [Memory.writeBytes, ih, List.length_cons]
    by_cases h1 : a' = a
    · subst h1
      rw [if_neg (by omega), if_pos (by omega), read_write_same]
      simp
    · by_cases h2 : a + 1 ≤ a' ∧ a' < a + 1 + bs.length
      · rw [if_pos h2, if_pos (by omega)]
        have : a' - a = (a' - (a + 1)) + 1 := by omega
        rw [this, List.getElem?_cons_succ]
      · rw [if_neg h2, if_neg (by omega), read_write_other m b h1]

theorem read_writeBytes_outside (m : Memory) {a a' : Nat} (bs : List Byte) (h : a' < a ∨ a + bs.length ≤ a') :
    (m.writeBytes a bs).read a' = m.read a' := by
  rw [read_writeBytes, if_neg (by omega)]

theorem read_writeBytes_inside (m : Memory) (a i : Nat) (bs : List Byte) (h : i < bs.length) :
    (m.writeBytes a bs).read (a + i) = some bs[i] := by
  rw [read_writeBytes, if_pos (by omega)]
  simp [h]

/-- A write lists no address but the old ones and its own. -/
theorem mem_write {m : Memory} {a : Nat} {b : Byte} {cell : Host.Cell} (h : cell ∈ m.write a b) :
    cell ∈ m ∨ cell = (a, b) := by
  induction m with
  | nil => simp_all [Memory.write]
  | cons c rest ih =>
    obtain ⟨x, y⟩ := c
    simp only [Memory.write] at h
    split at h
    · simp only [List.mem_cons] at h ⊢; tauto
    · split at h
      · simp only [List.mem_cons] at h ⊢; tauto
      · simp only [List.mem_cons] at h ⊢
        rcases h with h | h
        · tauto
        · have := ih h; tauto

/-- A write keeps the canonical form. -/
theorem write_wf {m : Memory} (a : Nat) (b : Byte) (h : m.wf) : (m.write a b).wf := by
  induction m with
  | nil => simp [Memory.write, Memory.wf]
  | cons c rest ih =>
    obtain ⟨x, y⟩ := c
    have h' := List.pairwise_cons.mp h
    simp only [Memory.write]
    split
    · rename_i hax
      refine List.pairwise_cons.mpr ⟨?_, h⟩
      intro cell hc
      rcases List.mem_cons.mp hc with rfl | hc
      · exact hax
      · exact Nat.lt_trans hax (h'.1 cell hc)
    · split
      · rename_i hax
        subst hax
        exact List.pairwise_cons.mpr ⟨h'.1, h'.2⟩
      · rename_i h1 h2
        refine List.pairwise_cons.mpr ⟨?_, ih h'.2⟩
        intro cell hc
        rcases mem_write hc with hc | rfl
        · exact h'.1 cell hc
        · show x < a
          omega

/-- A block write keeps the canonical form. -/
theorem writeBytes_wf {m : Memory} (a : Nat) (bs : List Byte) (h : m.wf) : (m.writeBytes a bs).wf := by
  induction bs generalizing m a with
  | nil => exact h
  | cons b bs ih => exact ih (a + 1) (write_wf a b h)

/-- A block write below a bound lists no address past it. -/
theorem writeBytes_bounded {m : Memory} {a n : Nat} {bs : List Byte} (hm : ∀ cell ∈ m, cell.1 < n)
    (h : a + bs.length ≤ n) : ∀ cell ∈ m.writeBytes a bs, cell.1 < n := by
  induction bs generalizing m a with
  | nil => exact hm
  | cons b bs ih =>
    simp only [List.length_cons] at h
    apply ih
    · intro cell hc
      rcases mem_write hc with hc | rfl
      · exact hm cell hc
      · show a < n
        omega
    · omega

/-- A block read answers bytes exactly when it finds each of them written. -/
theorem readBytes_ok_iff (m : Memory) (a n : Nat) (bs : List Byte) :
    m.readBytes a n = .ok bs ↔ bs.length = n ∧ ∀ i, i < n → m.read (a + i) = bs[i]? := by
  induction n generalizing a bs with
  | zero =>
    simp only [Memory.readBytes, Except.ok.injEq]
    constructor
    · rintro rfl; simp
    · rintro ⟨h, -⟩; exact (List.eq_nil_of_length_eq_zero h).symm
  | succ n ih =>
    constructor
    · intro h
      simp only [Memory.readBytes] at h
      split at h
      · cases h
      · rename_i b hb
        split at h
        · rename_i cs hcs
          simp only [Except.ok.injEq] at h
          subst h
          obtain ⟨hl, hr⟩ := (ih (a + 1) cs).mp hcs
          refine ⟨by simp [hl], ?_⟩
          intro i hi
          cases i with
          | zero => simpa using hb
          | succ i =>
            have := hr i (by omega)
            rw [List.getElem?_cons_succ, ← this]
            congr 1
            omega
        · cases h
    · rintro ⟨hl, hr⟩
      cases bs with
      | nil => simp at hl
      | cons b bs =>
        have h0 := hr 0 (by omega)
        simp only [Nat.add_zero, List.getElem?_cons_zero] at h0
        have hrest : m.readBytes (a + 1) n = .ok bs := by
          refine (ih (a + 1) bs).mpr ⟨by simpa using hl, ?_⟩
          intro i hi
          have := hr (i + 1) (by omega)
          rw [List.getElem?_cons_succ] at this
          rw [← this]
          congr 1
          omega
        simp only [Memory.readBytes, h0, hrest]

theorem readBytes_length {m : Memory} {a n : Nat} {bs : List Byte} (h : m.readBytes a n = .ok bs) : bs.length = n :=
  ((readBytes_ok_iff m a n bs).mp h).1

/-- A block read that fails names an unwritten address among those it reads. -/
theorem readBytes_error {m : Memory} {a n x : Nat} (h : m.readBytes a n = .error x) :
    a ≤ x ∧ x < a + n ∧ m.read x = none := by
  induction n generalizing a with
  | zero => simp [Memory.readBytes] at h
  | succ n ih =>
    simp only [Memory.readBytes] at h
    split at h
    · rename_i hb
      simp only [Except.error.injEq] at h
      subst h
      exact ⟨by omega, by omega, hb⟩
    · split at h
      · cases h
      · rename_i y hy
        simp only [Except.error.injEq] at h
        subst h
        obtain ⟨h1, h2, h3⟩ := ih hy
        exact ⟨by omega, by omega, h3⟩

/-- A block read whose bytes are all written answers them. -/
theorem readBytes_of_written {m : Memory} {a n : Nat} (h : ∀ x, a ≤ x → x < a + n → m.read x ≠ none) :
    ∃ bs, m.readBytes a n = .ok bs := by
  cases hr : m.readBytes a n with
  | ok bs => exact ⟨bs, rfl⟩
  | error x =>
    obtain ⟨h1, h2, h3⟩ := readBytes_error hr
    exact absurd h3 (h x h1 h2)

/-- The bytes that stand in MEM are what a block read answers. -/
theorem readBytes_of_holdsAt {s : State} {a : Nat} {bs : List Byte} (h : s.holdsAt a bs) :
    s.mem.readBytes a bs.length = .ok bs := by
  refine (readBytes_ok_iff _ _ _ _).mpr ⟨rfl, ?_⟩
  intro i hi
  have := h ⟨i, hi⟩
  simpa [hi] using this

/-- The bytes a block write has put there stand in MEM. -/
theorem holdsAt_of_mem_eq {s t : State} {a : Nat} {bs : List Byte} (h : t.mem = s.mem.writeBytes a bs) :
    t.holdsAt a bs := by
  intro i
  rw [h, read_writeBytes_inside _ _ _ _ i.isLt]
  rfl

end Sys2Proof.Machine
end

