-- ==== Sys2Proof/Laws/Ops.lean ====
section
/-! SUPPORT. What raising, completing and reading the source can do, said once for the commands' laws. -/

namespace Sys2Proof.Machine

/-- Raising answers the state with the exception's code and nothing else changed (00_scope.md R14). -/
@[simp] theorem raise_eq_next_iff (e : Exn) (s t : State) : raise e s = .next t ↔ t = s.setCode e.code := by
  simp [raise, eq_comm]

/-- Completing answers the state with the pending writes and code 0 (00_scope.md R14). -/
@[simp] theorem complete_eq_next_iff (s t : State) : complete s = .next t ↔ t = s.setCode codeOk := by
  simp [complete, eq_comm]

@[simp] theorem raise_ne_fault (e : Exn) (s : State) (f : Fault) : raise e s ≠ .fault f := by simp [raise]

@[simp] theorem raise_ne_refused (e : Exn) (s : State) (r : Refusal) : raise e s ≠ .refused r := by simp [raise]

@[simp] theorem complete_ne_fault (s : State) (f : Fault) : complete s ≠ .fault f := by simp [complete]

@[simp] theorem complete_ne_refused (s : State) (r : Refusal) : complete s ≠ .refused r := by simp [complete]

/-- Reading a source that stands in MEM goes on with its bytes. -/
theorem withSource_of_holdsAt {s : State} {a : Nat} {bs : List Byte} (go : List Byte → Result) (h : s.holdsAt a bs) :
    withSource s a bs.length go = go bs := by
  simp [withSource, readBytes_of_holdsAt h]

/-- Reading a source with an unwritten byte in it faults, whatever was to be done with the bytes. -/
theorem withSource_of_unwritten {s : State} {a n x : Nat} (go : List Byte → Result) (h1 : a ≤ x) (h2 : x < a + n)
    (hx : s.mem.read x = none) : ∃ y, withSource s a n go = .fault (.unwrittenByte y) := by
  unfold withSource
  cases hr : s.mem.readBytes a n with
  | error y => exact ⟨y, rfl⟩
  | ok bs =>
    obtain ⟨hlen, hread⟩ := (readBytes_ok_iff _ _ _ _).mp hr
    have := hread (x - a) (by omega)
    rw [Nat.add_sub_cancel' h1, hx, eq_comm, List.getElem?_eq_none_iff] at this
    omega

/-- What reading the source can do: fault at an unwritten byte of it, or go on with its bytes. -/
theorem withSource_cases (s : State) (a n : Nat) (go : List Byte → Result) :
    (∃ x, s.mem.readBytes a n = .error x ∧ withSource s a n go = .fault (.unwrittenByte x)) ∨
      (∃ bs, s.mem.readBytes a n = .ok bs ∧ withSource s a n go = go bs) := by
  unfold withSource
  cases s.mem.readBytes a n with
  | error x => exact .inl ⟨x, rfl, rfl⟩
  | ok bs => exact .inr ⟨bs, rfl, rfl⟩

end Sys2Proof.Machine
end

