-- ==== Sys2Proof/Laws/Commands.lean ====
section
/-! SUPPORT. What each command can do, said once per shared operation: if it answers a next state, then it has raised an exception of its own list, or it has completed with exactly these writes. -/

namespace Sys2Proof.Machine

/-- The symbols of an encoded sequence are as many as the length function says (43_groups.md R151, R157). -/
theorem encodeSeq_length (c : Codec) (bs : List Byte) : (encodeSeq c bs).length = symLen c bs.length := by
  induction bs using chunks_induction (groupBytes_pos c) with
  | nil => simp
  | short bs h0 h => rw [encodeSeq_short h0 h, encodeGroup_length, symLen_of_lt h]
  | full a bs ha ih =>
    rw [encodeSeq_append ha, List.length_append, encodeGroup_length, ha, symbolCount_groupBytes, ih,
      List.length_append, ha, symLen_add]

/-- The bytes of a decoded text are as many as the length function says (43_groups.md R153, R161). -/
theorem decodeSeq_length {c : Codec} {t bs : List Byte} (h : decodeSeq c t = some bs) :
    byteLen c t.length = some bs.length := by
  induction t using chunks_induction (groupSymbols_pos c) generalizing bs with
  | nil => simp at h; subst h; cases c <;> rfl
  | short t h0 hlt =>
    rw [decodeSeq_short h0 hlt] at h
    obtain ⟨v, -, hk, -⟩ := of_decodeGroup h
    rw [byteLen_of_lt hlt, hk]
  | full a t ha ih =>
    rw [decodeSeq_append ha] at h
    cases hd : decodeGroup c a with
    | none => simp [hd] at h
    | some x =>
      cases hs : decodeSeq c t with
      | none => simp [hd, hs] at h
      | some y =>
        simp [hd, hs] at h
        subst h
        obtain ⟨v, -, hk, -⟩ := of_decodeGroup hd
        rw [ha, ← symbolCount_groupBytes, byteCount_symbolCount c (Nat.le_refl _)] at hk
        rw [List.length_append, ha, byteLen_add, ih hs, Option.map_some, List.length_append]
        simpa using hk

/-- READ56 (41_int56.md R106). -/
theorem execRead56_cases {s t : State} (h : execRead56 s = .next t) :
    t = s.setCode Exn.outOfRange.code ∨
      (s.sourceLegal ∧ s.offN + 7 ≤ s.lenN ∧ ∃ bs, s.mem.readBytes (s.srcN + s.offN) 7 = .ok bs ∧
        t = (s.setRes (beValue bs)).setCode codeOk) := by
  unfold execRead56 at h
  split at h
  · exact .inl (by simpa using h)
  · rename_i hl
    split at h
    · exact .inl (by simpa using h)
    · rename_i ho
      rcases withSource_cases s (s.srcN + s.offN) 7 (fun bs => complete (s.setRes (beValue bs))) with
        ⟨x, -, hx⟩ | ⟨bs, hbs, hx⟩
      · rw [hx] at h; cases h
      · rw [hx] at h
        exact .inr ⟨by simpa using hl, by omega, bs, hbs, by simpa using h⟩

/-- WRITE56 (41_int56.md R107). -/
theorem execWrite56_cases {s t : State} (h : execWrite56 s = .next t) :
    t = s.setCode Exn.outOfRange.code ∨
      (s.destLegal ∧ s.val.extractLsb' 56 8 = 0 ∧ s.offN + 7 ≤ s.capN ∧
        t = (s.memWrite (s.dstN + s.offN) (beBytes s.valN 7)).setCode codeOk) := by
  unfold execWrite56 at h
  split at h
  · exact .inl (by simpa using h)
  · rename_i hl
    split at h
    · exact .inl (by simpa using h)
    · rename_i hv
      split at h
      · exact .inl (by simpa using h)
      · exact .inr ⟨by simpa using hl, by simpa using hv, by omega, by simpa using h⟩

/-- RADIXENC.c (42_radix.md R130 to R132). -/
theorem radixEncCommand_cases {c : Codec} {s t : State} (h : radixEncCommand c s = .next t) :
    t = s.setCode Exn.outOfRange.code ∨
      (s.destLegal ∧ s.lenN ≤ c.groupSymbols ∧ s.valN < c.radix ^ s.lenN ∧ s.lenN ≤ s.capN ∧
        t = ((s.memWrite s.dstN (render c s.valN s.lenN)).setRes s.lenN).setCode codeOk) := by
  unfold radixEncCommand at h
  split at h
  · exact .inl (by simpa using h)
  · rename_i h1
    split at h
    · exact .inl (by simpa using h)
    · split at h
      · exact .inl (by simpa using h)
      · split at h
        · exact .inl (by simpa using h)
        · exact .inr ⟨by simpa using h1, by omega, by omega, by omega, by simpa using h⟩

/-- RADIXDEC.c (42_radix.md R135 to R137). -/
theorem radixDecCommand_cases {c : Codec} {s t : State} (h : radixDecCommand c s = .next t) :
    t = s.setCode Exn.outOfRange.code ∨
      (s.sourceLegal ∧ s.lenN ≤ c.groupSymbols ∧ ∃ syms, s.mem.readBytes s.srcN s.lenN = .ok syms ∧
        ((parse c syms = none ∧ t = s.setCode Exn.invalidEncoding.code) ∨
          ∃ v, parse c syms = some v ∧ t = (s.setRes v).setCode codeOk)) := by
  unfold radixDecCommand at h
  split at h
  · exact .inl (by simpa using h)
  · rename_i hl
    split at h
    · exact .inl (by simpa using h)
    · refine .inr ⟨by simpa using hl, by omega, ?_⟩
      unfold withSource at h
      split at h
      · cases h
      · rename_i syms hs
        refine ⟨syms, hs, ?_⟩
        cases hp : parse c syms with
        | none => exact .inl ⟨rfl, by simpa [hp] using h⟩
        | some v => exact .inr ⟨v, rfl, by simpa [hp] using h⟩

/-- ENCODE.c (R180, R200, R220): it never raises `InvalidEncoding` (43_groups.md R164). -/
theorem encodeCommand_cases {c : Codec} {s t : State} (h : encodeCommand c s = .next t) :
    t = s.setCode Exn.outOfRange.code ∨
      (s.sourceLegal ∧ s.destLegal ∧ symLen c s.lenN ≤ s.capN ∧ ∃ bs, s.mem.readBytes s.srcN s.lenN = .ok bs ∧
        t = ((s.memWrite s.dstN (encodeSeq c bs)).setRes (symLen c s.lenN)).setCode codeOk) := by
  unfold encodeCommand at h
  split at h
  · exact .inl (by simpa using h)
  · rename_i h1
    split at h
    · exact .inl (by simpa using h)
    · rename_i h2
      split at h
      · exact .inl (by simpa using h)
      · refine .inr ⟨by simpa using h1, by simpa using h2, by omega, ?_⟩
        unfold withSource at h
        split at h
        · cases h
        · rename_i bs hb
          exact ⟨bs, hb, by simpa using h⟩

/-- DECODE.c (R181, R201, R221). -/
theorem decodeCommand_cases {c : Codec} {s t : State} (h : decodeCommand c s = .next t) :
    t = s.setCode Exn.outOfRange.code ∨
      (s.sourceLegal ∧ s.destLegal ∧ ∃ syms, s.mem.readBytes s.srcN s.lenN = .ok syms ∧
        ((valid c syms = false ∧ t = s.setCode Exn.invalidEncoding.code) ∨
          ∃ bs, decodeSeq c syms = some bs ∧ bs.length ≤ s.capN ∧
            t = ((s.memWrite s.dstN bs).setRes bs.length).setCode codeOk)) := by
  unfold decodeCommand at h
  split at h
  · exact .inl (by simpa using h)
  · rename_i h1
    split at h
    · exact .inl (by simpa using h)
    · rename_i h2
      unfold withSource at h
      split at h
      · cases h
      · rename_i syms hs
        have hlen := readBytes_length hs
        cases hd : decodeSeq c syms with
        | none =>
          have hv := decodeSeq_isSome c syms
          rw [hd] at hv
          simp only [hd, raise_eq_next_iff] at h
          exact .inr ⟨by simpa using h1, by simpa using h2, syms, hs, .inl ⟨by simpa using hv.symm, h⟩⟩
        | some bs =>
          have hb := decodeSeq_length hd
          rw [hlen] at hb
          simp only [hd, hb] at h
          split at h
          · exact .inl (by simpa using h)
          · exact .inr ⟨by simpa using h1, by simpa using h2, syms, hs, .inr ⟨bs, hd, by omega, by simpa using h⟩⟩

/-- VALIDATE.c (R182, R202, R222): an invalid text is an answer, not an exception. -/
theorem validateCommand_cases {c : Codec} {s t : State} (h : validateCommand c s = .next t) :
    t = s.setCode Exn.outOfRange.code ∨
      (s.sourceLegal ∧ ∃ syms, s.mem.readBytes s.srcN s.lenN = .ok syms ∧
        t = (s.setRes (if valid c syms then 1 else 0)).setCode codeOk) := by
  unfold validateCommand at h
  split at h
  · exact .inl (by simpa using h)
  · rename_i h1
    refine .inr ⟨by simpa using h1, ?_⟩
    unfold withSource at h
    split at h
    · cases h
    · rename_i syms hs
      exact ⟨syms, hs, by simpa using h⟩

/-- BYTELEN.c (R184, R204, R224). -/
theorem byteLenCommand_cases {c : Codec} {s t : State} (h : byteLenCommand c s = .next t) :
    (byteLen c s.lenN = none ∧ t = s.setCode Exn.invalidEncoding.code) ∨
      ∃ n, byteLen c s.lenN = some n ∧ t = (s.setRes n).setCode codeOk := by
  unfold byteLenCommand at h
  cases hb : byteLen c s.lenN with
  | none => exact .inl ⟨rfl, by simpa [hb] using h⟩
  | some n => exact .inr ⟨n, rfl, by simpa [hb] using h⟩

/-- The command writes exactly this: MEM bytes inside the legal destination region, and RES. -/
def Completes (s t : State) : Prop :=
  (∃ a bs, s.destLegal ∧ s.dstN ≤ a ∧ a + bs.length ≤ s.dstN + s.capN ∧
    (t = (s.memWrite a bs).setCode codeOk ∨ ∃ n, t = ((s.memWrite a bs).setRes n).setCode codeOk)) ∨
  ∃ n, t = (s.setRes n).setCode codeOk

/-- What any command can do when it answers a next state: raise an exception, and change STATUS.CODE alone, or
complete. -/
theorem exec_cases {i : Instr} {s t : State} (h : exec i s = .next t) :
    (∃ e : Exn, t = s.setCode e.code) ∨ Completes s t := by
  have henc : ∀ c, encodeCommand c s = .next t → (∃ e : Exn, t = s.setCode e.code) ∨ Completes s t := by
    intro c h
    rcases encodeCommand_cases h with h | ⟨-, hd, hc, bs, hb, h⟩
    · exact .inl ⟨_, h⟩
    · refine .inr (.inl ⟨_, _, hd, Nat.le_refl _, ?_, .inr ⟨_, h⟩⟩)
      rw [encodeSeq_length, readBytes_length hb]
      omega
  have hdec : ∀ c, decodeCommand c s = .next t → (∃ e : Exn, t = s.setCode e.code) ∨ Completes s t := by
    intro c h
    rcases decodeCommand_cases h with h | ⟨-, hd, syms, hs, ⟨-, h⟩ | ⟨bs, hb, hc, h⟩⟩
    · exact .inl ⟨_, h⟩
    · exact .inl ⟨_, h⟩
    · exact .inr (.inl ⟨_, _, hd, Nat.le_refl _, by omega, .inr ⟨_, h⟩⟩)
  have hval : ∀ c, validateCommand c s = .next t → (∃ e : Exn, t = s.setCode e.code) ∨ Completes s t := by
    intro c h
    rcases validateCommand_cases h with h | ⟨-, syms, -, h⟩
    · exact .inl ⟨_, h⟩
    · exact .inr (.inr ⟨_, h⟩)
  have hsym : ∀ c, symLenCommand c s = .next t → (∃ e : Exn, t = s.setCode e.code) ∨ Completes s t := by
    intro c h
    exact .inr (.inr ⟨_, by simpa [symLenCommand] using h⟩)
  have hbyt : ∀ c, byteLenCommand c s = .next t → (∃ e : Exn, t = s.setCode e.code) ∨ Completes s t := by
    intro c h
    rcases byteLenCommand_cases h with ⟨-, h⟩ | ⟨n, -, h⟩
    · exact .inl ⟨_, h⟩
    · exact .inr (.inr ⟨_, h⟩)
  have hren : ∀ c, radixEncCommand c s = .next t → (∃ e : Exn, t = s.setCode e.code) ∨ Completes s t := by
    intro c h
    rcases radixEncCommand_cases h with h | ⟨hd, -, -, hc, h⟩
    · exact .inl ⟨_, h⟩
    · exact .inr (.inl ⟨_, _, hd, Nat.le_refl _, by rw [render_length]; omega, .inr ⟨_, h⟩⟩)
  have hrde : ∀ c, radixDecCommand c s = .next t → (∃ e : Exn, t = s.setCode e.code) ∨ Completes s t := by
    intro c h
    rcases radixDecCommand_cases h with h | ⟨-, -, syms, -, ⟨-, h⟩ | ⟨v, -, h⟩⟩
    · exact .inl ⟨_, h⟩
    · exact .inl ⟨_, h⟩
    · exact .inr (.inr ⟨_, h⟩)
  cases i with
  | read56 =>
    rcases execRead56_cases h with h | ⟨-, -, bs, -, h⟩
    · exact .inl ⟨_, h⟩
    · exact .inr (.inr ⟨_, h⟩)
  | write56 =>
    rcases execWrite56_cases h with h | ⟨hd, -, ho, h⟩
    · exact .inl ⟨_, h⟩
    · exact .inr (.inl ⟨_, _, hd, by omega, by rw [beBytes_length]; omega, .inl h⟩)
  | radixencB10 => exact hren _ h
  | radixencB45 => exact hren _ h
  | radixencB94 => exact hren _ h
  | radixdecB10 => exact hrde _ h
  | radixdecB45 => exact hrde _ h
  | radixdecB94 => exact hrde _ h
  | encodeB10 => exact henc _ h
  | decodeB10 => exact hdec _ h
  | validateB10 => exact hval _ h
  | symlenB10 => exact hsym _ h
  | bytelenB10 => exact hbyt _ h
  | encodeB45 => exact henc _ h
  | decodeB45 => exact hdec _ h
  | validateB45 => exact hval _ h
  | symlenB45 => exact hsym _ h
  | bytelenB45 => exact hbyt _ h
  | encodeB94 => exact henc _ h
  | decodeB94 => exact hdec _ h
  | validateB94 => exact hval _ h
  | symlenB94 => exact hsym _ h
  | bytelenB94 => exact hbyt _ h

end Sys2Proof.Machine
end

