-- ==== Sys2Proof/Laws/PerInstr.lean ====
section
/-! SUPPORT. The families of statements about every instruction as syntax, one lemma per constructor. -/

namespace Sys2Proof.Laws.EncodedWord

/-- The word of a command is legal and decodes to the command (30_encoding.md R84, R87). -/
def Statement (i : Instr) : Prop := WellFormed.legalWord (encode i) = true ∧ decode (encode i) = .ok i

theorem read56 : Statement .read56 := ⟨by decide, by decide⟩
theorem write56 : Statement .write56 := ⟨by decide, by decide⟩
theorem radixencB10 : Statement .radixencB10 := ⟨by decide, by decide⟩
theorem radixencB45 : Statement .radixencB45 := ⟨by decide, by decide⟩
theorem radixencB94 : Statement .radixencB94 := ⟨by decide, by decide⟩
theorem radixdecB10 : Statement .radixdecB10 := ⟨by decide, by decide⟩
theorem radixdecB45 : Statement .radixdecB45 := ⟨by decide, by decide⟩
theorem radixdecB94 : Statement .radixdecB94 := ⟨by decide, by decide⟩
theorem encodeB10 : Statement .encodeB10 := ⟨by decide, by decide⟩
theorem decodeB10 : Statement .decodeB10 := ⟨by decide, by decide⟩
theorem validateB10 : Statement .validateB10 := ⟨by decide, by decide⟩
theorem symlenB10 : Statement .symlenB10 := ⟨by decide, by decide⟩
theorem bytelenB10 : Statement .bytelenB10 := ⟨by decide, by decide⟩
theorem encodeB45 : Statement .encodeB45 := ⟨by decide, by decide⟩
theorem decodeB45 : Statement .decodeB45 := ⟨by decide, by decide⟩
theorem validateB45 : Statement .validateB45 := ⟨by decide, by decide⟩
theorem symlenB45 : Statement .symlenB45 := ⟨by decide, by decide⟩
theorem bytelenB45 : Statement .bytelenB45 := ⟨by decide, by decide⟩
theorem encodeB94 : Statement .encodeB94 := ⟨by decide, by decide⟩
theorem decodeB94 : Statement .decodeB94 := ⟨by decide, by decide⟩
theorem validateB94 : Statement .validateB94 := ⟨by decide, by decide⟩
theorem symlenB94 : Statement .symlenB94 := ⟨by decide, by decide⟩
theorem bytelenB94 : Statement .bytelenB94 := ⟨by decide, by decide⟩

end Sys2Proof.Laws.EncodedWord
end

