-- ==== Sys2Proof/Laws/Step.lean ====
section
/-! SUPPORT. What one step can do: the host operation at the head of the list, or idling. -/

namespace Sys2Proof.Machine

theorem step_nil {s : State} (h : s.host.pending = []) : step s = .next s := by simp [step, h]

theorem step_cons {s : State} {op : HostOp} {rest : List HostOp} (h : s.host.pending = op :: rest) :
    step s = hostOp op (s.advanceHost rest) := by simp [step, h]

/-- The step after withFetchWord is the CMD write of that word. -/
theorem step_withFetchWord (s : State) (nbits w : Nat) :
    step (s.withFetchWord nbits w) =
      hostOp (.writeReg 0 (w % 2 ^ nbits)) ((s.withFetchWord nbits w).advanceHost s.host.pending) := rfl

/-- What a CMD write can do: raise `IllegalCommand`, or run the command it names (30_encoding.md R85). -/
theorem runCommand_cases (w : Word) (s : State) :
    (∃ x, decode w = .error x ∧ runCommand w s = .next ((s.setCmd w).setCode Exn.illegalCommand.code)) ∨
      (∃ i, decode w = .ok i ∧ runCommand w s = exec i (s.setCmd w)) := by
  unfold runCommand
  cases decode w with
  | error x => exact .inl ⟨x, rfl, rfl⟩
  | ok i => exact .inr ⟨i, rfl, rfl⟩

/-- What a write of a fitting value can do: run a command, set one operand register, or nothing. -/
theorem storeReg_cases {r v : Nat} {s t : State} (h : storeReg r v s = .next t) :
    (r = 0 ∧ runCommand (BitVec.ofNat 32 v) s = .next t) ∨
      (∃ src len dst cap off val, t = { s with src := src, len := len, dst := dst, cap := cap, off := off, val := val }) := by
  unfold storeReg at h
  split at h
  · exact .inl ⟨rfl, h⟩
  all_goals
    simp only [Host.Outcome.next.injEq] at h
    subst h
    exact .inr ⟨_, _, _, _, _, _, rfl⟩

/-- What a host operation can do when it answers a next state. -/
theorem hostOp_cases {op : HostOp} {s t : State} (h : hostOp op s = .next t) :
    (∃ v, op = .writeReg 0 v ∧ v < 2 ^ 32 ∧ runCommand (BitVec.ofNat 32 v) s = .next t) ∨
      (∃ src len dst cap off val, t = { s with src := src, len := len, dst := dst, cap := cap, off := off, val := val }) ∨
      (∃ v, t = s.recordValue v) ∨ t = s.recordFree ∨
      (∃ a b, op = .writeMem a b ∧ a < s.memSize ∧ t = { s with mem := s.mem.write a (BitVec.ofNat 8 b) }) ∨
      t = State.resetWith s.memSize s.host := by
  cases op with
  | writeReg r v =>
    simp only [hostOp, hostWriteReg] at h
    split at h
    · cases h
    · rename_i width hw
      split at h
      · rename_i hv
        rcases storeReg_cases h with ⟨rfl, h⟩ | h
        · simp only [WellFormed.regWidth, Option.some.injEq] at hw
          subst hw
          exact .inl ⟨v, rfl, hv, h⟩
        · exact .inr (.inl h)
      · cases h
  | readReg r =>
    simp only [hostOp, hostReadReg] at h
    split at h
    · cases h
    · simp only [Host.Outcome.next.injEq] at h
      exact .inr (.inr (.inl ⟨_, h.symm⟩))
  | writeMem a b =>
    simp only [hostOp, hostWriteMem] at h
    split at h
    · cases h
    · rename_i ha
      split at h
      · cases h
      · simp only [Host.Outcome.next.injEq] at h
        exact .inr (.inr (.inr (.inr (.inl ⟨a, b, rfl, by omega, h.symm⟩))))
  | readMem a =>
    simp only [hostOp, hostReadMem] at h
    split at h
    · cases h
    · split at h
      · simp only [Host.Outcome.next.injEq] at h
        exact .inr (.inr (.inl ⟨_, h.symm⟩))
      · simp only [Host.Outcome.next.injEq] at h
        exact .inr (.inr (.inr (.inl h.symm)))
  | reset =>
    simp only [hostOp, hostReset, Host.Outcome.next.injEq] at h
    exact .inr (.inr (.inr (.inr (.inr h.symm))))

end Sys2Proof.Machine
end

