-- ==== Sys2Proof/Tests/Slice0.lean ====
section
/-! SUPPORT. Tests, with every expected value taken from the spec (30_encoding.md, 95_test_vectors.md), and for every statement with hypotheses a named witness that concrete values meet them. -/

namespace Sys2Proof.Tests

open Sys2Proof.Machine

/-- A block with those operands, MEM_SIZE 4096, no MEM byte written, and 9 in RES so that an unchanged RES shows. -/
def bench (src len dst cap off val : Nat) : State :=
  { State.reset with
      src := BitVec.ofNat 32 src
      len := BitVec.ofNat 32 len
      dst := BitVec.ofNat 32 dst
      cap := BitVec.ofNat 32 cap
      off := BitVec.ofNat 32 off
      val := BitVec.ofNat 64 val
      res := 9 }

/-- The same block with bytes written from an address on. -/
def put (s : State) (a : Nat) (bs : List Nat) : State := s.memWrite a (bs.map (BitVec.ofNat 8))

/-- The same block with host operations to come. -/
def toDo (s : State) (ops : List HostOp) : State := { s with host := { s.host with pending := ops } }

/-- The code, RES and n bytes of MEM from a on, after an answer that is a next state. -/
def view (r : Result) (a n : Nat) : Option (Nat × Nat × List (Option Nat)) :=
  match r with
  | .next t => some (t.statusCode.toNat, t.res.toNat, (List.range n).map (fun j => (t.mem.read (a + j)).map BitVec.toNat))
  | .fault _ => none
  | .refused _ => none

/-- What a command answers, viewed. -/
def answer (i : Instr) (s : State) (a n : Nat) : Option (Nat × Nat × List (Option Nat)) := view (exec i s) a n

/-! ## Decoding: each word by its fields RSVD, CODEC, OP (30_encoding.md R80 to R82) -/

theorem test_decode_read56 : decode (0b0000000000000000000000#22 ++ 0b00#2 ++ 0b00000001#8) = .ok .read56 := by decide
theorem test_decode_write56 : decode (0b0000000000000000000000#22 ++ 0b00#2 ++ 0b00000010#8) = .ok .write56 := by decide
theorem test_decode_radixencB10 : decode (0b0000000000000000000000#22 ++ 0b00#2 ++ 0b00010000#8) = .ok .radixencB10 := by decide
theorem test_decode_radixencB45 : decode (0b0000000000000000000000#22 ++ 0b01#2 ++ 0b00010000#8) = .ok .radixencB45 := by decide
theorem test_decode_radixencB94 : decode (0b0000000000000000000000#22 ++ 0b10#2 ++ 0b00010000#8) = .ok .radixencB94 := by decide
theorem test_decode_radixdecB10 : decode (0b0000000000000000000000#22 ++ 0b00#2 ++ 0b00010001#8) = .ok .radixdecB10 := by decide
theorem test_decode_radixdecB45 : decode (0b0000000000000000000000#22 ++ 0b01#2 ++ 0b00010001#8) = .ok .radixdecB45 := by decide
theorem test_decode_radixdecB94 : decode (0b0000000000000000000000#22 ++ 0b10#2 ++ 0b00010001#8) = .ok .radixdecB94 := by decide
theorem test_decode_encodeB10 : decode (0b0000000000000000000000#22 ++ 0b00#2 ++ 0b00100000#8) = .ok .encodeB10 := by decide
theorem test_decode_decodeB10 : decode (0b0000000000000000000000#22 ++ 0b00#2 ++ 0b00100001#8) = .ok .decodeB10 := by decide
theorem test_decode_validateB10 : decode (0b0000000000000000000000#22 ++ 0b00#2 ++ 0b00100010#8) = .ok .validateB10 := by decide
theorem test_decode_symlenB10 : decode (0b0000000000000000000000#22 ++ 0b00#2 ++ 0b00100011#8) = .ok .symlenB10 := by decide
theorem test_decode_bytelenB10 : decode (0b0000000000000000000000#22 ++ 0b00#2 ++ 0b00100100#8) = .ok .bytelenB10 := by decide
theorem test_decode_encodeB45 : decode (0b0000000000000000000000#22 ++ 0b01#2 ++ 0b00100000#8) = .ok .encodeB45 := by decide
theorem test_decode_decodeB45 : decode (0b0000000000000000000000#22 ++ 0b01#2 ++ 0b00100001#8) = .ok .decodeB45 := by decide
theorem test_decode_validateB45 : decode (0b0000000000000000000000#22 ++ 0b01#2 ++ 0b00100010#8) = .ok .validateB45 := by decide
theorem test_decode_symlenB45 : decode (0b0000000000000000000000#22 ++ 0b01#2 ++ 0b00100011#8) = .ok .symlenB45 := by decide
theorem test_decode_bytelenB45 : decode (0b0000000000000000000000#22 ++ 0b01#2 ++ 0b00100100#8) = .ok .bytelenB45 := by decide
theorem test_decode_encodeB94 : decode (0b0000000000000000000000#22 ++ 0b10#2 ++ 0b00100000#8) = .ok .encodeB94 := by decide
theorem test_decode_decodeB94 : decode (0b0000000000000000000000#22 ++ 0b10#2 ++ 0b00100001#8) = .ok .decodeB94 := by decide
theorem test_decode_validateB94 : decode (0b0000000000000000000000#22 ++ 0b10#2 ++ 0b00100010#8) = .ok .validateB94 := by decide
theorem test_decode_symlenB94 : decode (0b0000000000000000000000#22 ++ 0b10#2 ++ 0b00100011#8) = .ok .symlenB94 := by decide
theorem test_decode_bytelenB94 : decode (0b0000000000000000000000#22 ++ 0b10#2 ++ 0b00100100#8) = .ok .bytelenB94 := by decide

theorem test_decode_zero_word : decode 0x00000000 = .error .unassignedOp := by decide

theorem test_decode_reserved_bit : decode 0x80000020 = .error .reservedBits := by decide

theorem test_decode_reserved_codec : decode 0x00000320 = .error .reservedCodec := by decide

theorem test_decode_read56_with_codec : decode 0x00000101 = .error .helperWithCodec := by decide

theorem test_decode_write56_with_codec : decode 0x00000202 = .error .helperWithCodec := by decide

theorem test_encode_all : Instr.all.map (fun i => decode (encode i)) = Instr.all.map (fun i => .ok i) := by decide

/-! ## Well-formedness: an ill-formed term for each check (95_test_vectors.md 2.5 lists the words as illegal) -/

theorem test_reservedClear_refuses : WellFormed.reservedClear 0x00000420 = false := by decide

theorem test_opAssigned_refuses : WellFormed.opAssigned 0x00000025 = false := by decide

theorem test_codecAssigned_refuses : WellFormed.codecAssigned 0x00000320 = false := by decide

theorem test_helperCodecClear_refuses : WellFormed.helperCodecClear 0x00000202 = false := by decide

theorem test_legalWord_refuses :
    [0x00000000, 0x00000003, 0x00000012, 0x000000FF, 0x00000101, 0x80000020, 0xFFFFFFFF].map WellFormed.legalWord =
      [false, false, false, false, false, false, false] := by decide

theorem test_wf_register_number : (HostOp.writeReg 9 0).wf 4096 = false ∧ (HostOp.readReg 9).wf 4096 = false := by decide

theorem test_wf_register_width :
    (HostOp.writeReg 2 (2 ^ 32)).wf 4096 = false ∧ (HostOp.writeReg 7 (2 ^ 64)).wf 4096 = false := by decide

theorem test_wf_address : (HostOp.writeMem 4096 0).wf 4096 = false ∧ (HostOp.readMem 4096).wf 4096 = false := by decide

theorem test_wf_byte : (HostOp.writeMem 0 256).wf 4096 = false := by decide

/-! ## One command each -/

/-- 95_test_vectors.md 2.1: OFF = LEN - 7. -/
theorem test_read56 :
    answer .read56 (put (bench 0x100 10 0 0 3 0) 0x100 [0xA0, 0xA1, 0xA2, 0x01, 0x02, 0x03, 0x04, 0x05, 0x06, 0x07]) 0 0 = some (0, 0x1020304050607, []) := by decide

/-- 95_test_vectors.md 2.1: OFF + 7 does not wrap. -/
theorem test_read56_no_wrap :
    answer .read56 (put (bench 0x100 8 0 0 0xFFFFFFFF 0) 0x100 [0x01, 0x02, 0x03, 0x04, 0x05, 0x06, 0x07, 0x08]) 0 0 = some (2, 9, []) := by decide

/-- 95_test_vectors.md 2.1: OFF = CAP - 7; RES stays. -/
theorem test_write56 :
    answer .write56 (bench 0 0 0x200 9 2 0xABCDEF01234567) 0x202 7 = some (0, 9, [some 0xAB, some 0xCD, some 0xEF, some 0x01, some 0x23, some 0x45, some 0x67]) := by decide

/-- 95_test_vectors.md 2.1: 2^56 is not truncated. -/
theorem test_write56_too_large :
    answer .write56 (bench 0 0 0x200 7 0 0x100000000000000) 0 0 = some (2, 9, []) := by decide

/-- 95_test_vectors.md 2.2. -/
theorem test_radixenc_b10 :
    answer .radixencB10 (bench 0 17 0x200 20 0 72057594037927935) 0x200 17 = some (0, 17, [some 0x37, some 0x32, some 0x30, some 0x35, some 0x37, some 0x35, some 0x39, some 0x34, some 0x30, some 0x33, some 0x37, some 0x39, some 0x32, some 0x37, some 0x39, some 0x33, some 0x35]) := by decide

/-- 95_test_vectors.md 2.2: VAL >= 10^LEN. -/
theorem test_radixenc_b10_value :
    answer .radixencB10 (bench 0 3 0x200 20 0 1000) 0 0 = some (2, 9, []) := by decide

/-- 95_test_vectors.md 2.2. -/
theorem test_radixenc_b45 :
    answer .radixencB45 (bench 0 3 0x200 20 0 65535) 0x200 3 = some (0, 3, [some 0x46, some 0x47, some 0x57]) := by decide

/-- 95_test_vectors.md 2.2: no symbols. -/
theorem test_radixenc_b45_zero :
    answer .radixencB45 (bench 0 0 0x200 0 0 0) 0 0 = some (0, 0, []) := by decide

/-- 95_test_vectors.md 2.2. -/
theorem test_radixenc_b94 :
    answer .radixencB94 (bench 0 5 0x200 20 0 4294967295) 0x200 5 = some (0, 5, [some 0x4A, some 0x7C, some 0x22, some 0x22, some 0x58]) := by decide

/-- 95_test_vectors.md 2.2: LEN > CAP. -/
theorem test_radixenc_b94_capacity :
    answer .radixencB94 (bench 0 2 0x200 1 0 1) 0 0 = some (2, 9, []) := by decide

/-- 95_test_vectors.md 2.2: 2^56, which no fit test refuses. -/
theorem test_radixdec_b10 :
    answer .radixdecB10 (put (bench 0x100 17 0 0 0 0) 0x100 [0x37, 0x32, 0x30, 0x35, 0x37, 0x35, 0x39, 0x34, 0x30, 0x33, 0x37, 0x39, 0x32, 0x37, 0x39, 0x33, 0x36]) 0 0 = some (0, 0x100000000000000, []) := by decide

/-- 95_test_vectors.md 2.2. -/
theorem test_radixdec_b10_symbol :
    answer .radixdecB10 (put (bench 0x100 3 0 0 0 0) 0x100 [0x30, 0x38, 0x61]) 0 0 = some (1, 9, []) := by decide

/-- 95_test_vectors.md 2.2. -/
theorem test_radixdec_b45 :
    answer .radixdecB45 (put (bench 0x100 2 0 0 0 0) 0x100 [0x41, 0x42]) 0 0 = some (0, 505, []) := by decide

/-- 95_test_vectors.md 2.2: LEN > GS before the alphabet. -/
theorem test_radixdec_b45_long :
    answer .radixdecB45 (put (bench 0x100 4 0 0 0 0) 0x100 [0x61, 0x61, 0x61, 0x61]) 0 0 = some (2, 9, []) := by decide

/-- 95_test_vectors.md 2.2. -/
theorem test_radixdec_b94 :
    answer .radixdecB94 (put (bench 0x100 1 0 0 0 0) 0x100 [0x61]) 0 0 = some (0, 64, []) := by decide

/-- 95_test_vectors.md 2.2. -/
theorem test_radixdec_b94_symbol :
    answer .radixdecB94 (put (bench 0x100 3 0 0 0 0) 0x100 [0x71, 0x20, 0x21]) 0 0 = some (1, 9, []) := by decide

/-- 95_test_vectors.md 2.3: a full group and a partial one. -/
theorem test_encode_b10 :
    answer .encodeB10 (put (bench 0x100 8 0x200 20 0 0) 0x100 [0xFF, 0xFF, 0xFF, 0xFF, 0xFF, 0xFF, 0xFF, 0xFF]) 0x200 20 = some (0, 20, [some 0x37, some 0x32, some 0x30, some 0x35, some 0x37, some 0x35, some 0x39, some 0x34, some 0x30, some 0x33, some 0x37, some 0x39, some 0x32, some 0x37, some 0x39, some 0x33, some 0x35, some 0x32, some 0x35, some 0x35]) := by decide

/-- 95_test_vectors.md 2.5: an empty region past MEM_SIZE. -/
theorem test_encode_b10_region :
    answer .encodeB10 (bench 0x1001 0 0x200 0 0 0) 0 0 = some (2, 9, []) := by decide

/-- 95_test_vectors.md 2.3. -/
theorem test_encode_b45 :
    answer .encodeB45 (put (bench 0x100 5 0x200 8 0 0) 0x100 [0x69, 0x65, 0x74, 0x66, 0x21]) 0x200 8 = some (0, 8, [some 0x51, some 0x45, some 0x44, some 0x38, some 0x57, some 0x45, some 0x58, some 0x30]) := by decide

/-- 95_test_vectors.md 2.5. -/
theorem test_encode_b45_capacity :
    answer .encodeB45 (put (bench 0x100 2 0x200 2 0 0) 0x100 [0x41, 0x42]) 0 0 = some (2, 9, []) := by decide

/-- 95_test_vectors.md 2.5: the source is read before the destination is written. -/
theorem test_encode_b94_overlap :
    answer .encodeB94 (put (bench 0x100 4 0x102 5 0 0) 0x100 [0xFF, 0xFF, 0xFF, 0xFF]) 0x102 5 = some (0, 5, [some 0x4A, some 0x7C, some 0x22, some 0x22, some 0x58]) := by decide

/-- 95_test_vectors.md 2.3. -/
theorem test_encode_b94 :
    answer .encodeB94 (put (bench 0x100 5 0x200 20 0 0) 0x100 [0x12, 0x34, 0x56, 0x78, 0x9A]) 0x200 7 = some (0, 7, [some 0x6F, some 0x46, some 0x64, some 0x76, some 0x24, some 0x5D, some 0x22]) := by decide

/-- 95_test_vectors.md 2.4. -/
theorem test_decode_b10 :
    answer .decodeB10 (put (bench 0x100 20 0x200 20 0 0) 0x100 [0x30, 0x30, 0x30, 0x30, 0x30, 0x30, 0x30, 0x30, 0x30, 0x30, 0x30, 0x30, 0x30, 0x30, 0x30, 0x30, 0x30, 0x30, 0x30, 0x31]) 0x200 8 = some (0, 8, [some 0x00, some 0x00, some 0x00, some 0x00, some 0x00, some 0x00, some 0x00, some 0x01]) := by decide

/-- 95_test_vectors.md 2.5: InvalidEncoding before the capacity. -/
theorem test_decode_b10_order :
    answer .decodeB10 (put (bench 0x100 3 0x200 0 0 0) 0x100 [0x39, 0x39, 0x39]) 0 0 = some (1, 9, []) := by decide

/-- 95_test_vectors.md 2.4. -/
theorem test_decode_b45 :
    answer .decodeB45 (put (bench 0x100 11 0x200 20 0 0) 0x100 [0x25, 0x36, 0x39, 0x20, 0x56, 0x44, 0x39, 0x32, 0x45, 0x58, 0x30]) 0x200 7 = some (0, 7, [some 0x48, some 0x65, some 0x6C, some 0x6C, some 0x6F, some 0x21, some 0x21]) := by decide

/-- 95_test_vectors.md 2.5: the last run overflows. -/
theorem test_decode_b45_overflow :
    answer .decodeB45 (put (bench 0x100 5 0x200 3 0 0) 0x100 [0x42, 0x42, 0x38, 0x3A, 0x3A]) 0 0 = some (1, 9, []) := by decide

/-- 95_test_vectors.md 2.5: in place; the second byte stays. -/
theorem test_decode_b94_in_place :
    answer .decodeB94 (put (bench 0x100 2 0x100 2 0 0) 0x100 [0x71, 0x21]) 0x100 2 = some (0, 1, [some 0x50, some 0x21]) := by decide

/-- 95_test_vectors.md 2.4: a value above 2^32. -/
theorem test_decode_b94_overflow :
    answer .decodeB94 (put (bench 0x100 5 0x200 20 0 0) 0x100 [0x4A, 0x7C, 0x22, 0x22, 0x59]) 0 0 = some (1, 9, []) := by decide

/-- 95_test_vectors.md 2.4. -/
theorem test_validate_b10 :
    answer .validateB10 (put (bench 0x100 5 0 0 0 0) 0x100 [0x36, 0x35, 0x35, 0x33, 0x35]) 0 0 = some (0, 1, []) := by decide

/-- 95_test_vectors.md 2.4: 65536. -/
theorem test_validate_b10_range :
    answer .validateB10 (put (bench 0x100 5 0 0 0 0) 0x100 [0x36, 0x35, 0x35, 0x33, 0x36]) 0 0 = some (0, 0, []) := by decide

/-- 95_test_vectors.md 2.4: 300 in one byte. -/
theorem test_validate_b45 :
    answer .validateB45 (put (bench 0x100 2 0 0 0 0) 0x100 [0x55, 0x36]) 0 0 = some (0, 0, []) := by decide

/-- 95_test_vectors.md 2.5. -/
theorem test_validate_b45_region :
    answer .validateB45 (put (bench 0xFFE 3 0 0 0 0) 0xFFE [0x42, 0x42]) 0 0 = some (2, 9, []) := by decide

/-- 95_test_vectors.md 2.4. -/
theorem test_validate_b94 :
    answer .validateB94 (put (bench 0x100 4 0 0 0 0) 0x100 [0x22, 0x66, 0x33, 0x35]) 0 0 = some (0, 1, []) := by decide

/-- 95_test_vectors.md 2.4: DEL. -/
theorem test_validate_b94_symbol :
    answer .validateB94 (put (bench 0x100 2 0 0 0 0) 0x100 [0x71, 0x7F]) 0 0 = some (0, 0, []) := by decide

/-- 95_test_vectors.md 2.6. -/
theorem test_symlen_b10 :
    answer .symlenB10 (bench 0 100 0 0 0 0) 0 0 = some (0, 243, []) := by decide

/-- 95_test_vectors.md 2.6: the largest LEN. -/
theorem test_symlen_b10_largest :
    answer .symlenB10 (bench 0 4294967295 0 0 0 0) 0 0 = some (0, 10430634860, []) := by decide

/-- 95_test_vectors.md 2.6: the largest LEN. -/
theorem test_bytelen_b10 :
    answer .bytelenB10 (bench 0 4294967295 0 0 0 0) 0 0 = some (0, 1768515945, []) := by decide

/-- 95_test_vectors.md 2.6. -/
theorem test_bytelen_b10_bad :
    answer .bytelenB10 (bench 0 4 0 0 0 0) 0 0 = some (1, 9, []) := by decide

/-- 95_test_vectors.md 2.6. -/
theorem test_symlen_b45 :
    answer .symlenB45 (bench 0 100 0 0 0 0) 0 0 = some (0, 150, []) := by decide

/-- 95_test_vectors.md 2.6: the largest LEN. -/
theorem test_symlen_b45_largest :
    answer .symlenB45 (bench 0 4294967295 0 0 0 0) 0 0 = some (0, 6442450943, []) := by decide

/-- 95_test_vectors.md 2.6: the largest LEN. -/
theorem test_bytelen_b45 :
    answer .bytelenB45 (bench 0 4294967295 0 0 0 0) 0 0 = some (0, 2863311530, []) := by decide

/-- 95_test_vectors.md 2.6. -/
theorem test_bytelen_b45_bad :
    answer .bytelenB45 (bench 0 1 0 0 0 0) 0 0 = some (1, 9, []) := by decide

/-- 95_test_vectors.md 2.6. -/
theorem test_symlen_b94 :
    answer .symlenB94 (bench 0 100 0 0 0 0) 0 0 = some (0, 125, []) := by decide

/-- 95_test_vectors.md 2.6: the largest LEN. -/
theorem test_symlen_b94_largest :
    answer .symlenB94 (bench 0 4294967295 0 0 0 0) 0 0 = some (0, 5368709119, []) := by decide

/-- 95_test_vectors.md 2.6: the largest LEN. -/
theorem test_bytelen_b94 :
    answer .bytelenB94 (bench 0 4294967295 0 0 0 0) 0 0 = some (0, 3435973836, []) := by decide

/-- 95_test_vectors.md 2.6. -/
theorem test_bytelen_b94_bad :
    answer .bytelenB94 (bench 0 6 0 0 0 0) 0 0 = some (1, 9, []) := by decide

/-! ## The host interface -/

/-- 95_test_vectors.md 2.5: an illegal word writes STATUS and CMD only. -/
theorem test_illegal_word :
    step (toDo (bench 1 2 3 4 5 6) [.writeReg 0 0x00000320]) =
      .next { bench 1 2 3 4 5 6 with cmd := 0x00000320, status := 3, host := ⟨[], 1, [], 0⟩ } := rfl

/-- 95_test_vectors.md 3, program 1, its host operation 6. -/
theorem test_step_encode :
    view (step (toDo (put (bench 0x100 2 0x200 3 0 0) 0x100 [0x41, 0x42]) [.writeReg 0 0x120, .readReg 1])) 0x200 3 =
      some (0, 3, [some 0x42, some 0x42, some 0x38]) := by decide

/-- 10_state.md R31: a read of RES is recorded, and STATUS and RES ignore a write. -/
theorem test_host_read : hostOp (.readReg 8) (bench 0 0 0 0 0 0) = .next ((bench 0 0 0 0 0 0).recordValue 9) := rfl

theorem test_host_write_ignored : hostOp (.writeReg 8 5) (bench 0 0 0 0 0 0) = .next (bench 0 0 0 0 0 0) := rfl

/-- 93_implementation_defined.md S6, S7, S8, S14: what is refused. -/
theorem test_host_refused :
    hostOp (.readReg 9) State.reset = .refused (.noSuchRegister 9) ∧
      hostOp (.readMem 4096) State.reset = .refused (.noSuchAddress 4096) ∧
      hostOp (.writeReg 2 (2 ^ 32)) State.reset = .refused (.valueTooWide 2 (2 ^ 32)) ∧
      hostOp (.writeMem 0 256) State.reset = .refused (.byteTooWide 256) :=
  ⟨rfl, rfl, rfl, rfl⟩

/-- 70_reset_and_hazards.md R271: a command that reads an unwritten byte. -/
theorem test_unwritten_byte :
    exec .encodeB45 (put (bench 0x100 2 0x200 3 0 0) 0x100 [0x41]) = .fault (.unwrittenByte 0x101) := rfl

/-- 95_test_vectors.md 3, program 1, its fourth line. -/
theorem test_assembly_line :
    (parseProgram "ENCODE.B45 src=0x100, len=2, dst=0x200, cap=3".toList).map expandProgram =
      some [.writeReg 2 0x100, .writeReg 3 2, .writeReg 4 0x200, .writeReg 5 3, .writeReg 0 0x120] := by decide

/-- Log 16 and log 17: a quote inside a text, and a list of no bytes. -/
theorem test_assembly_quote :
    (parseProgram "STSTR 0x100, \"a\"b\"".toList).map expandProgram = none := by decide

theorem test_assembly_no_bytes : (parseProgram "STBS 0x100".toList).map expandProgram = some [] := by decide

theorem test_print_illegal : printWord 0x80000020 = "CMD 0x80000020".toList := by decide

/-! ## Witnesses: the hypotheses of each statement met together, at the ends of their ranges -/

theorem witness_DecodeInvertsEncode : decode 0x00000224 = .ok .bytelenB94 ∧ encode .bytelenB94 = 0x00000224 := by decide

theorem witness_IllegalWordRaisesIllegalCommand_reserved : (0x00000420 : Word).toNat / 2 ^ 10 ≠ 0 := by decide

theorem witness_IllegalWordRaisesIllegalCommand_op :
    (0x00000025 : Word).toNat % 2 ^ 8 ∉ [0x01, 0x02, 0x10, 0x11, 0x20, 0x21, 0x22, 0x23, 0x24] := by decide

theorem witness_IllegalWordRaisesIllegalCommand_codec : (0x00000320 : Word).toNat / 2 ^ 8 % 4 = 3 := by decide

theorem witness_IllegalWordRaisesIllegalCommand_helper :
    (0x00000202 : Word).toNat % 2 ^ 8 ∈ [0x01, 0x02] ∧ (0x00000202 : Word).toNat / 2 ^ 8 % 4 ≠ 0 := by decide

theorem witness_StepRunsDecodedCommand :
    (toDo State.reset [.writeReg 0 0x120, .reset]).host.pending = .writeReg 0 0x120 :: [.reset] ∧ 0x120 < 2 ^ 32 ∧
      decode (BitVec.ofNat 32 0x120) = .ok .encodeB45 := by decide

theorem witness_StepPerformsNextHostOperation :
    (toDo State.reset [.reset]).host.pending = .reset :: [] ∧ State.reset.host.pending = [] := by decide

theorem witness_HostPcCountsOperations :
    ∃ t, (toDo State.reset [.readReg 8]).host.pending = .readReg 8 :: [] ∧ step (toDo State.reset [.readReg 8]) = .next t :=
  ⟨_, rfl, rfl⟩

theorem witness_HostWritesRegister_operand :
    (2 ≤ 2 ∧ 2 ≤ 7 ∧ 2 ^ 32 - 1 < 2 ^ (if (2 : Nat) = 7 then 64 else 32)) ∧
      (2 ≤ 7 ∧ 7 ≤ 7 ∧ 2 ^ 64 - 1 < 2 ^ (if (7 : Nat) = 7 then 64 else 32)) := by decide

theorem witness_HostWritesRegister_ignored :
    ((1 : Nat) = 1 ∧ 2 ^ 32 - 1 < 2 ^ 32) ∧ ((8 : Nat) = 8 ∧ 2 ^ 64 - 1 < 2 ^ 64) := by decide

theorem witness_HostWritesRegister_number : 8 < 9 := by decide

theorem witness_HostWritesRegister_width :
    (6 ≤ 8 ∧ 2 ^ (if (6 : Nat) = 7 ∨ 6 = 8 then 64 else 32) ≤ 2 ^ 32) ∧
      (8 ≤ 8 ∧ 2 ^ (if (8 : Nat) = 7 ∨ 8 = 8 then 64 else 32) ≤ 2 ^ 64) := by decide

theorem witness_HostWritesRegister_command : 0x224 < 2 ^ 32 ∧ decode (BitVec.ofNat 32 0x224) = .ok .bytelenB94 := by decide

theorem witness_HostReadsRegister : ({ State.reset with status := 15 } : State).status.toNat < 16 ∧ 8 < 9 := by decide

theorem witness_HostMemoryAccess_write : 4095 < State.reset.memSize ∧ 255 < 256 := by decide

theorem witness_HostMemoryAccess_read :
    4095 < (put State.reset 4095 [7]).memSize ∧ (put State.reset 4095 [7]).mem.read 4095 = some 7 := by decide

theorem witness_HostReadOfUnwrittenByteCompletes : 4095 < State.reset.memSize ∧ State.reset.mem.read 4095 = none := by decide

theorem witness_RefusedExactlyOutsideInterface :
    (HostOp.readMem 4096).wf State.reset.memSize = false ∧
      hostOp (.readMem 4096) State.reset = .refused (.noSuchAddress 4096) := ⟨by decide, rfl⟩

theorem witness_ResetClearsBlock : 8 ≤ 8 := by decide

theorem witness_ResetKeepsInstanceAndHost : ∃ t, hostOp .reset (bench 1 2 3 4 5 6) = .next t := ⟨_, rfl⟩

theorem witness_CommandWordReadsBack_command : ∃ t, hostOp (.writeReg 0 0x25) State.reset = .next t := ⟨_, rfl⟩

theorem witness_CommandWordReadsBack_other :
    ∃ t, hostOp (.writeReg 2 7) State.reset = .next t ∧ (∀ v, HostOp.writeReg 2 7 ≠ .writeReg 0 v) ∧
      HostOp.writeReg 2 7 ≠ .reset :=
  ⟨_, rfl, fun _ => by simp, by decide⟩

theorem witness_PrintedCommandWord :
    decode 0x00000001 = .ok .read56 ∧ decode 0xFFFFFFFF = .error .reservedBits := by decide

theorem witness_StepKeepsStateWf :
    ∃ t, (toDo State.reset [.writeMem 4095 255]).wf ∧ step (toDo State.reset [.writeMem 4095 255]) = .next t :=
  ⟨_, by decide, rfl⟩

theorem witness_ResetMeetsStateWf : (1 ≤ 1 ∧ 1 ≤ 2 ^ 32) ∧ 1 ≤ 2 ^ 32 ∧ 2 ^ 32 ≤ 2 ^ 32 := by decide

theorem witness_CommandsWriteOnlyStatusResMem :
    ∃ t, exec .encodeB45 (put (bench 0x100 2 0x200 3 0 0) 0x100 [0x41, 0x42]) = .next t := ⟨_, rfl⟩

theorem witness_FailingCommandChangesOnlyCode : ∃ t, exec .bytelenB45 (bench 0 1 0 0 0 0) = .next t ∧ t.statusCode ≠ 0 :=
  ⟨_, rfl, by decide⟩

theorem witness_FailingCommandChangesOnlyCode_word :
    ∃ t, hostOp (.writeReg 0 (0x00000420#32).toNat) (bench 1 2 3 4 5 6) = .next t ∧ t.statusCode ≠ 0 := ⟨_, rfl, by decide⟩

theorem witness_OutcomeTable :
    (∃ t, exec .decodeB94 (bench 0x1001 0 0 0 0 0) = .next t) ∧ (2 : BitVec 4) ∈ outcomesOf .decodeB94 :=
  ⟨⟨_, rfl⟩, by decide⟩

theorem witness_CommandsReadOnlyTheirOperands :
    let s := bench 0x100 3 0 0 0 0
    let u := put (bench 0x100 3 7 8 9 10) 0x200 [1]
    let s1 := put s 0x100 [0x30, 0x38, 0x30]
    let u1 := put u 0x100 [0x30, 0x38, 0x30]
    s1.memSize = u1.memSize ∧ (∀ r ∈ operandsOf .radixdecB10, s1.regValue r = u1.regValue r) ∧
      (∀ a, (sourceRange .radixdecB10 s1).1 ≤ a → a < (sourceRange .radixdecB10 s1).1 + (sourceRange .radixdecB10 s1).2 →
        s1.mem.read a = u1.mem.read a) ∧
      (∃ s', exec .radixdecB10 s1 = .next s') ∧ exec .radixdecB10 s = .fault (.unwrittenByte 0x100) := by
  refine ⟨by decide, by decide, ?_, ⟨_, rfl⟩, rfl⟩
  intro a h1 h2
  have h3 : 0x100 ≤ a := h1
  have h4 : a < 0x103 := h2
  interval_cases a <;> decide

theorem witness_CommandFaultsOnlyOnUnwrittenSource :
    (let s := bench 0xFF9 7 0 0 0 0
     reachesMemRead .read56 s ∧ (sourceRange .read56 s).1 ≤ 0xFFF ∧
       0xFFF < (sourceRange .read56 s).1 + (sourceRange .read56 s).2 ∧ s.mem.read 0xFFF = none) ∧
      exec .read56 (bench 0xFF9 7 0 0 0 0) = .fault (.unwrittenByte 0xFF9) :=
  ⟨⟨by unfold reachesMemRead; decide, by decide, by decide, by decide⟩, rfl⟩

theorem witness_CommandEndsWhenSourceWritten :
    let s := put (bench 0x100 2 0 0 0 0) 0x100 [0x71, 0x21]
    ∀ a, (sourceRange .validateB94 s).1 ≤ a → a < (sourceRange .validateB94 s).1 + (sourceRange .validateB94 s).2 →
      s.mem.read a ≠ none := by
  intro s a h1 h2
  have h3 : 0x100 ≤ a := h1
  have h4 : a < 0x102 := h2
  interval_cases a <;> decide

theorem witness_StoringCommandsFrame :
    let s := put (bench 0x100 4 0x102 5 0 0) 0x100 [0xFF, 0xFF, 0xFF, 0xFF]
    (∃ t, exec .encodeB94 s = .next t) ∧ 0x101 < (storedRange .encodeB94 s).1 ∧
      (storedRange .encodeB94 s).1 + (storedRange .encodeB94 s).2 ≤ 0x107 :=
  ⟨⟨_, rfl⟩, by decide, by decide⟩

theorem witness_StoringCommandsFrame_trap : ∃ t, exec .write56 (bench 0 0 0xFFA 7 0 1) = .next t ∧ t.statusCode ≠ 0 :=
  ⟨_, rfl, by decide⟩

theorem witness_NonStoringCommandsFrame : ∃ t, exec .bytelenB94 (bench 0 6 0 0 0 0) = .next t ∧ t.statusCode ≠ 0 :=
  ⟨_, rfl, by decide⟩

theorem witness_Read56Result_traps :
    (let s := bench 0xFFA 7 0 0 0 0; s.src.toNat + s.len.toNat > s.memSize) ∧
      (let s := bench 0x100 10 0 0 4 0; s.off.toNat + 7 > s.len.toNat) := by decide

theorem witness_Read56Result_completes :
    let s := put (bench 0xFF8 8 0 0 1 0) 0xFF9 [1, 2, 3, 4, 5, 6, 7]
    s.src.toNat + s.len.toNat ≤ s.memSize ∧ s.off.toNat + 7 ≤ s.len.toNat ∧
      s.holdsAt (s.src.toNat + s.off.toNat) [1, 2, 3, 4, 5, 6, 7] := by decide

theorem witness_Write56Result_traps :
    (let s := bench 0 0 0xFFA 7 0 1; s.dst.toNat + s.cap.toNat > s.memSize) ∧
      (let s := bench 0 0 0 7 0 (2 ^ 56); 2 ^ 56 ≤ s.val.toNat) ∧
      (let s := bench 0 0 0x200 9 3 1; s.off.toNat + 7 > s.cap.toNat) := by decide

theorem witness_Write56Result_completes :
    let s := bench 0 0 0xFF9 7 0 (2 ^ 56 - 1)
    s.dst.toNat + s.cap.toNat ≤ s.memSize ∧ s.val.toNat < 2 ^ 56 ∧ s.off.toNat + 7 ≤ s.cap.toNat ∧ 6 < 7 := by decide

theorem witness_BigEndianInverseLaws : 2 ^ 56 - 1 < 2 ^ (8 * 7) ∧ 0 < 2 ^ (8 * 0) := by decide

theorem witness_UInt56HelpersSucceedAndFail :
    1 + 7 > ([1, 2, 3, 4, 5, 6, 7] : List Byte).length ∧ 0 + 7 ≤ ([1, 2, 3, 4, 5, 6, 7] : List Byte).length ∧
      2 ^ 56 > 2 ^ 56 - 1 ∧ 6 < 7 ∧ 7 ≥ 0 + 7 := by decide

theorem witness_Base10GroupUsesInt56Helpers_encode :
    ([0, 1, 2, 3, 4, 5, 255] : List Byte).length = 7 ∧ readUInt56BE [0, 1, 2, 3, 4, 5, 255] 0 = some 1108152157695 := by
  decide

theorem witness_Base10GroupUsesInt56Helpers_decode :
    let ru := [0x37, 0x32, 0x30, 0x35, 0x37, 0x35, 0x39, 0x34, 0x30, 0x33, 0x37, 0x39, 0x32, 0x37, 0x39, 0x33, 0x35]
    ru.length = 17 ∧ decodeGroup .base10 ru = some [0xFF, 0xFF, 0xFF, 0xFF, 0xFF, 0xFF, 0xFF] ∧
      1 + 7 ≤ ([0, 0, 0, 0, 0, 0, 0, 0] : List Byte).length := by decide

theorem witness_Write56ThenRead56 :
    ∃ t, exec .write56 (bench 0 0 0xFF9 7 0 (2 ^ 56 - 1)) = .next t ∧ t.statusCode = 0 := ⟨_, rfl, by decide⟩

theorem witness_RadixencLsdFirstResult :
    let s := bench 0 3 0xFFD 3 0 91124
    s.dst.toNat + s.cap.toNat ≤ s.memSize ∧ s.len.toNat ≤ Codec.base45.groupSymbols ∧
      s.val.toNat < Codec.base45.radix ^ s.len.toNat ∧ s.len.toNat ≤ s.cap.toNat ∧ 2 < s.len.toNat := by decide

theorem witness_RadixencB10Result :
    let s := bench 0 17 0x200 17 0 99999999999999999
    s.dst.toNat + s.cap.toNat ≤ s.memSize ∧ s.len.toNat ≤ 17 ∧ s.val.toNat < 10 ^ s.len.toNat ∧
      s.len.toNat ≤ s.cap.toNat ∧ 16 < s.len.toNat := by decide

theorem witness_RadixencResults_traps :
    (let s := bench 0 0 0x1001 0 0 0; s.dst.toNat + s.cap.toNat > s.memSize) ∧
      (let s := bench 0 4 0x200 20 0 5; s.len.toNat > Codec.base45.groupSymbols) ∧
      (let s := bench 0 3 0x200 20 0 1000; s.val.toNat ≥ Codec.base10.radix ^ s.len.toNat) ∧
      (let s := bench 0 2 0x200 1 0 1; s.len.toNat > s.cap.toNat) := by decide

theorem witness_RadixdecResult_completes :
    let s := put (bench 0xFFE 2 0 0 0 0) 0xFFE [0x41, 0x42]
    [10, 11].length = s.len.toNat ∧ s.src.toNat + s.len.toNat ≤ s.memSize ∧
      s.len.toNat ≤ Codec.base45.groupSymbols ∧ (∀ d ∈ [10, 11], d < Codec.base45.radix) ∧
      s.holdsAt s.src.toNat ([10, 11].map Codec.base45.symbolOf) := by decide

theorem witness_RadixdecResult_range :
    (let s := bench 0x1001 0 0 0 0 0; s.src.toNat + s.len.toNat > s.memSize) ∧
      (let s := bench 0x100 6 0 0 0 0; s.len.toNat > Codec.base94.groupSymbols) := by decide

theorem witness_RadixdecResult_symbol :
    let s := put (bench 0x100 3 0 0 0 0) 0x100 [0x30, 0x38, 0x61]
    ([0x30, 0x38, 0x61] : List Byte).length = s.len.toNat ∧ s.src.toNat + s.len.toNat ≤ s.memSize ∧
      s.len.toNat ≤ Codec.base10.groupSymbols ∧ s.holdsAt s.src.toNat [0x30, 0x38, 0x61] ∧
      ∃ u ∈ ([0x30, 0x38, 0x61] : List Byte), Codec.base10.inAlphabet u = false := by decide

theorem witness_RenderParseInverse :
    91124 < Codec.base45.radix ^ 3 ∧ [0x3A, 0x3A, 0x3A].all Codec.base45.inAlphabet = true := by decide

theorem witness_RadixencThenRadixdec :
    ∃ t, exec .radixencB94 (bench 0 5 0xFFB 5 0 7339040223) = .next t ∧ t.statusCode = 0 := ⟨_, rfl, by decide⟩

theorem witness_LengthLaws : byteLen .base10 15 = some 6 ∧ 6 < 7 := by decide

theorem witness_Base94Alphabet : 93 < 94 := by decide

theorem witness_Base10AndBase45Alphabets : 9 < 10 ∧ 44 < 45 := by decide

theorem witness_BytelenResult :
    ((bench 0 15 0 0 0 0).len.toNat % 17, 6) ∈ [(0, 0), (3, 1), (5, 2), (8, 3), (10, 4), (13, 5), (15, 6)] ∧
      (∀ r, ((bench 0 16 0 0 0 0).len.toNat % 17, r) ∉ [(0, 0), (3, 1), (5, 2), (8, 3), (10, 4), (13, 5), (15, 6)]) := by
  refine ⟨by decide, fun r => ?_⟩
  simp [bench]

theorem witness_EncodeResult_completes :
    let s := put (bench 0xFFE 2 0xFFD 3 0 0) 0xFFE [0x41, 0x42]
    ([0x41, 0x42] : List Byte).length = s.len.toNat ∧ s.src.toNat + s.len.toNat ≤ s.memSize ∧
      s.dst.toNat + s.cap.toNat ≤ s.memSize ∧ symLen .base45 s.len.toNat ≤ s.cap.toNat ∧
      s.holdsAt s.src.toNat [0x41, 0x42] := by decide

theorem witness_EncodeResult_traps :
    (let s := bench 0xFFF 2 0x200 3 0 0; s.src.toNat + s.len.toNat > s.memSize) ∧
      (let s := bench 0x100 2 0xFFE 3 0 0; s.dst.toNat + s.cap.toNat > s.memSize) ∧
      (let s := bench 0x100 2 0x200 2 0 0; symLen .base45 s.len.toNat > s.cap.toNat) := by decide

theorem witness_Base10EncodedText :
    ([1, 2, 3, 4, 5, 6, 7] : List Byte).length = 7 ∧ 0 < ([255] : List Byte).length ∧
      ([1, 2, 3, 4, 5, 6] : List Byte).length < 7 := by decide

theorem witness_Base94EncodedText :
    ([1, 2, 3, 4] : List Byte).length = 4 ∧ 0 < ([255] : List Byte).length ∧ ([1, 2, 3] : List Byte).length < 4 := by
  decide

theorem witness_ValidTextsAreEncodings :
    valid .base45 [0x42, 0x42, 0x38] = true ∧ decodeSeq .base45 [0x42, 0x42, 0x38] = some [0x41, 0x42] ∧
      encodeSeq .base45 [0x41, 0x42] = [0x42, 0x42, 0x38] := by decide

theorem witness_ValidityConjuncts : valid .base94 [0x64, 0x23] = true ∧ valid .base94 [0x64, 0x24] = false := by decide

theorem witness_DecodeUndoesEncode_completes :
    let s := put (bench 0x100 3 0x100 2 0 0) 0x100 [0x42, 0x42, 0x38]
    (encodeSeq .base45 [0x41, 0x42]).length = s.len.toNat ∧ s.src.toNat + s.len.toNat ≤ s.memSize ∧
      s.dst.toNat + s.cap.toNat ≤ s.memSize ∧ s.holdsAt s.src.toNat (encodeSeq .base45 [0x41, 0x42]) ∧
      ([0x41, 0x42] : List Byte).length ≤ s.cap.toNat := by decide

theorem witness_DecodeResult_region :
    (let s := bench 0x1001 0 0 0 0 0; s.src.toNat + s.len.toNat > s.memSize) ∧
      (let s := bench 0x100 3 0xFFF 2 0 0; s.dst.toNat + s.cap.toNat > s.memSize) := by decide

theorem witness_DecodeUndoesEncode_invalid :
    let s := put (bench 0x100 1 0x200 0 0 0) 0x100 [0x30]
    ([0x30] : List Byte).length = s.len.toNat ∧ s.src.toNat + s.len.toNat ≤ s.memSize ∧
      s.dst.toNat + s.cap.toNat ≤ s.memSize ∧ s.holdsAt s.src.toNat [0x30] ∧
      (∀ bs, encodeSeq .base45 bs ≠ [0x30]) := by
  refine ⟨by decide, by decide, by decide, by decide, fun bs h => ?_⟩
  have hlen := congrArg List.length h
  rw [encodeSeq_length] at hlen
  simp only [symLen, Codec.groupBytes, Codec.groupSymbols, List.length_singleton] at hlen
  have hmod : bs.length % 2 < 2 := Nat.mod_lt _ (by decide)
  have hcount : Codec.base45.symbolCount 0 = 0 ∧ Codec.base45.symbolCount 1 = 2 := by decide
  interval_cases bs.length % 2 <;> omega

theorem witness_DecodeResult_valid :
    let s := put (bench 0x100 3 0x200 1 0 0) 0x100 [0x42, 0x42, 0x38]
    let u := put (bench 0xFFD 3 0xFFE 2 0 0) 0xFFD [0x42, 0x42, 0x38]
    ([0x42, 0x42, 0x38] : List Byte).length = s.len.toNat ∧ s.src.toNat + s.len.toNat ≤ s.memSize ∧
      s.dst.toNat + s.cap.toNat ≤ s.memSize ∧ s.holdsAt s.src.toNat [0x42, 0x42, 0x38] ∧
      valid .base45 [0x42, 0x42, 0x38] = true ∧ ([0x41, 0x42] : List Byte).length > s.cap.toNat ∧
      u.src.toNat + u.len.toNat ≤ u.memSize ∧ u.dst.toNat + u.cap.toNat ≤ u.memSize ∧
      u.holdsAt u.src.toNat [0x42, 0x42, 0x38] ∧ ([0x41, 0x42] : List Byte).length ≤ u.cap.toNat := by decide

theorem witness_DecodeResult_invalid :
    let s := put (bench 0x100 3 0x200 0 0 0) 0x100 [0x39, 0x39, 0x39]
    ([0x39, 0x39, 0x39] : List Byte).length = s.len.toNat ∧ s.src.toNat + s.len.toNat ≤ s.memSize ∧
      s.dst.toNat + s.cap.toNat ≤ s.memSize ∧ s.holdsAt s.src.toNat [0x39, 0x39, 0x39] ∧
      valid .base10 [0x39, 0x39, 0x39] = false := by decide

theorem witness_ValidateResult :
    (let s := bench 0xFFE 3 0 0 0 0; s.src.toNat + s.len.toNat > s.memSize) ∧
      (let s := put (bench 0xFFE 2 0 0 0 0) 0xFFE [0x71, 0x21]
       ([0x71, 0x21] : List Byte).length = s.len.toNat ∧ s.src.toNat + s.len.toNat ≤ s.memSize ∧
        s.holdsAt s.src.toNat [0x71, 0x21]) := by decide

theorem witness_ValidationSoundness :
    let s := put (bench 0x100 3 0x200 1 0 0) 0x100 [0x32, 0x35, 0x36]
    ∃ t u, exec .decodeB10 s = .next t ∧ exec .validateB10 s = .next u ∧ t.statusCode ≠ 2 ∧ u.statusCode ≠ 2 :=
  ⟨_, _, rfl, rfl, by decide, by decide⟩

theorem witness_EncodeThenDecodeRestoresBytes :
    let s := put (bench 0x100 1 0x200 3 0 0) 0x100 [255]
    ([255] : List Byte).length = s.len.toNat ∧ s.holdsAt s.src.toNat [255] ∧
      (∃ t, exec .encodeB10 s = .next t ∧ t.statusCode = 0) ∧ (0xFFF#32).toNat + (1#32).toNat ≤ s.memSize ∧
      ([255] : List Byte).length ≤ (1#32).toNat :=
  ⟨by decide, by decide, ⟨_, rfl, by decide⟩, by decide, by decide⟩

end Sys2Proof.Tests
end

section
/-! The invariant of the block, State.wf: one lemma per operation that writes STATUS, MEM or the whole block, then commands,
host operations and steps by the lemmas that say what each can do. An operation that writes none of memSize, mem and status
keeps the invariant by definition, so such cases close by the hypothesis itself. -/

namespace Sys2Proof.Machine

/-- STATUS[31:4] is 0 under the invariant, so STATUS becomes the code itself. -/
theorem setCode_wf {s : State} (hs : s.wf) {c : BitVec 4} (hc : c.toNat < 4) : (s.setCode c).wf := by
  obtain ⟨hpos, hmax, hmem, hbound, hstatus⟩ := hs
  have hcode : (s.setCode c).status.toNat = c.toNat := status_setCode_toNat s c (by omega)
  exact ⟨hpos, hmax, hmem, hbound, by omega⟩

theorem raised_wf {s : State} (hs : s.wf) (e : Exn) : (s.setCode e.code).wf := setCode_wf hs (code_lt_four e)

theorem completed_wf {s : State} (hs : s.wf) : (s.setCode codeOk).wf := setCode_wf hs (by decide)

theorem memWrite_wf {s : State} (hs : s.wf) {a : Nat} {bs : List Byte} (h : a + bs.length ≤ s.memSize) :
    (s.memWrite a bs).wf := by
  obtain ⟨hpos, hmax, hmem, hbound, hstatus⟩ := hs
  exact ⟨hpos, hmax, writeBytes_wf a bs hmem, writeBytes_bounded hbound h, hstatus⟩

theorem resetWith_wf {n : Nat} (hpos : 1 ≤ n) (hmax : n ≤ 2 ^ 32) (host : HostSide) : (State.resetWith n host).wf :=
  ⟨hpos, hmax, List.Pairwise.nil, by simp [State.resetWith], by simp [State.resetWith]⟩

/-- A command stores inside its legal destination region only, hence below MEM_SIZE (20_memory.md R64). -/
theorem Completes.wf {s t : State} (h : Completes s t) (hs : s.wf) : t.wf := by
  rcases h with ⟨a, bs, hlegal, -, hend, h⟩ | ⟨n, rfl⟩
  · have hfit : a + bs.length ≤ s.memSize := by
      rw [destLegal_iff] at hlegal
      omega
    have hstored := memWrite_wf hs hfit
    rcases h with rfl | ⟨n, rfl⟩
    · exact completed_wf hstored
    · exact completed_wf (s := (s.memWrite a bs).setRes n) hstored
  · exact completed_wf (s := s.setRes n) hs

theorem exec_wf {i : Instr} {s t : State} (hs : s.wf) (h : exec i s = .next t) : t.wf := by
  rcases exec_cases h with ⟨e, rfl⟩ | hdone
  · exact raised_wf hs e
  · exact hdone.wf hs

theorem runCommand_wf {w : Word} {s t : State} (hs : s.wf) (h : runCommand w s = .next t) : t.wf := by
  have hcmd : (s.setCmd w).wf := hs
  rcases runCommand_cases w s with ⟨-, -, hr⟩ | ⟨i, -, hr⟩
  · rw [hr, Host.Outcome.next.injEq] at h
    subst h
    exact raised_wf hcmd .illegalCommand
  · exact exec_wf hcmd (hr ▸ h)

theorem hostOp_wf {op : HostOp} {s t : State} (hs : s.wf) (h : hostOp op s = .next t) : t.wf := by
  rcases hostOp_cases h with ⟨v, -, -, hrun⟩ | ⟨src, len, dst, cap, off, val, rfl⟩ | ⟨v, rfl⟩ | rfl |
    ⟨a, b, -, ha, rfl⟩ | rfl
  · exact runCommand_wf hs hrun
  · exact hs
  · exact hs
  · exact hs
  · exact memWrite_wf (bs := [BitVec.ofNat 8 b]) hs ha
  · obtain ⟨hpos, hmax, -⟩ := hs
    exact resetWith_wf hpos hmax s.host

/-- Settles O17: the invariant is kept by the host's next operation, and by idling. -/
theorem stepKeepsStateWf : Obligations.StepKeepsStateWf := by
  intro s t hs h
  cases hp : s.host.pending with
  | nil =>
    rw [step_nil hp, Host.Outcome.next.injEq] at h
    exact h ▸ hs
  | cons op rest =>
    rw [step_cons hp] at h
    have hadvanced : (s.advanceHost rest).wf := hs
    exact hostOp_wf hadvanced h

end Sys2Proof.Machine
end

section
/-! The frame of every command, from the lemma that says what a command can do, and that no command is refused: each
template by its checks, and a command that reads MEM by what withSource can answer. -/

namespace Sys2Proof.Machine

/-! ## What a command changes -/

/-- A command that completes changes STATUS, RES and MEM alone. -/
theorem Completes.frame {s t : State} (h : Completes s t) :
    t = { s with status := t.status, res := t.res, mem := t.mem } := by
  rcases h with ⟨a, bs, -, -, -, rfl | ⟨n, rfl⟩⟩ | ⟨n, rfl⟩ <;> rfl

theorem Completes.status_high {s t : State} (h : Completes s t) :
    t.status &&& 0xFFFFFFF0#32 = s.status &&& 0xFFFFFFF0#32 := by
  rcases h with ⟨a, bs, -, -, -, rfl | ⟨n, rfl⟩⟩ | ⟨n, rfl⟩
  · rw [status_high_setCode, memWrite_status]
  · rw [status_high_setCode, setRes_status, memWrite_status]
  · rw [status_high_setCode, setRes_status]

/-- A command changes STATUS, RES and MEM alone (10_state.md R21, R22). -/
theorem exec_frame {i : Instr} {s t : State} (h : exec i s = .next t) :
    t = { s with status := t.status, res := t.res, mem := t.mem } := by
  rcases exec_cases h with ⟨e, rfl⟩ | hdone
  · rfl
  · exact hdone.frame

/-- A command writes no bit of STATUS above CODE (10_state.md R23). -/
theorem exec_status_high {i : Instr} {s t : State} (h : exec i s = .next t) :
    t.status &&& 0xFFFFFFF0#32 = s.status &&& 0xFFFFFFF0#32 := by
  rcases exec_cases h with ⟨e, rfl⟩ | hdone
  · exact status_high_setCode s e.code
  · exact hdone.status_high

/-- Settles O19: the frame of a command, field by field. -/
theorem commandsWriteOnlyStatusResMem : Obligations.CommandsWriteOnlyStatusResMem := by
  intro i s t h
  have hhigh := exec_status_high h
  rw [exec_frame h] at hhigh ⊢
  exact ⟨rfl, rfl, rfl, rfl, rfl, rfl, rfl, rfl, rfl, hhigh⟩

/-- A CMD write changes CMD, STATUS, RES and MEM alone, and CMD holds the word (10_state.md R22). -/
theorem runCommand_frame {w : Word} {s t : State} (h : runCommand w s = .next t) :
    t = { s with cmd := w, status := t.status, res := t.res, mem := t.mem } := by
  rcases runCommand_cases w s with ⟨-, -, hr⟩ | ⟨i, -, hr⟩
  · rw [hr, Host.Outcome.next.injEq] at h
    subst h
    rfl
  · exact exec_frame (s := s.setCmd w) (hr ▸ h)

/-! ## No command is refused -/

theorem withSource_ne_refused {s : State} {a n : Nat} {go : List Byte → Result} {r : Refusal}
    (h : ∀ bs, go bs ≠ .refused r) : withSource s a n go ≠ .refused r := by
  rcases withSource_cases s a n go with ⟨x, -, hx⟩ | ⟨bs, -, hx⟩
  · simp [hx]
  · rw [hx]
    exact h bs

/-- A check that raises where it fails is refused only where what follows it is. -/
theorem check_ne_refused {p : Prop} [Decidable p] {e : Exn} {s : State} {next : Result} {r : Refusal}
    (h : next ≠ .refused r) : (if p then raise e s else next) ≠ .refused r := by
  split
  · exact raise_ne_refused e s r
  · exact h

theorem execRead56_ne_refused (s : State) (r : Refusal) : execRead56 s ≠ .refused r :=
  check_ne_refused <| check_ne_refused <| withSource_ne_refused fun _ => complete_ne_refused _ r

theorem execWrite56_ne_refused (s : State) (r : Refusal) : execWrite56 s ≠ .refused r :=
  check_ne_refused <| check_ne_refused <| check_ne_refused <| complete_ne_refused _ r

theorem radixEncCommand_ne_refused (c : Codec) (s : State) (r : Refusal) : radixEncCommand c s ≠ .refused r :=
  check_ne_refused <| check_ne_refused <| check_ne_refused <| check_ne_refused <| complete_ne_refused _ r

theorem radixDecCommand_ne_refused (c : Codec) (s : State) (r : Refusal) : radixDecCommand c s ≠ .refused r := by
  refine check_ne_refused <| check_ne_refused <| withSource_ne_refused fun syms => ?_
  split
  · exact raise_ne_refused _ s r
  · exact complete_ne_refused _ r

theorem encodeCommand_ne_refused (c : Codec) (s : State) (r : Refusal) : encodeCommand c s ≠ .refused r :=
  check_ne_refused <| check_ne_refused <| check_ne_refused <| withSource_ne_refused fun _ => complete_ne_refused _ r

theorem decodeCommand_ne_refused (c : Codec) (s : State) (r : Refusal) : decodeCommand c s ≠ .refused r := by
  refine check_ne_refused <| check_ne_refused <| withSource_ne_refused fun syms => ?_
  split
  · exact check_ne_refused <| complete_ne_refused _ r
  · exact raise_ne_refused _ s r

theorem validateCommand_ne_refused (c : Codec) (s : State) (r : Refusal) : validateCommand c s ≠ .refused r :=
  check_ne_refused <| withSource_ne_refused fun _ => complete_ne_refused _ r

theorem symLenCommand_ne_refused (c : Codec) (s : State) (r : Refusal) : symLenCommand c s ≠ .refused r :=
  complete_ne_refused _ r

theorem byteLenCommand_ne_refused (c : Codec) (s : State) (r : Refusal) : byteLenCommand c s ≠ .refused r := by
  unfold byteLenCommand
  split
  · exact raise_ne_refused _ s r
  · exact complete_ne_refused _ r

/-- No command is refused: refusals are of host accesses only. -/
theorem exec_ne_refused (i : Instr) (s : State) (r : Refusal) : exec i s ≠ .refused r := by
  cases i with
  | read56 => exact execRead56_ne_refused s r
  | write56 => exact execWrite56_ne_refused s r
  | radixencB10 | radixencB45 | radixencB94 => exact radixEncCommand_ne_refused _ s r
  | radixdecB10 | radixdecB45 | radixdecB94 => exact radixDecCommand_ne_refused _ s r
  | encodeB10 | encodeB45 | encodeB94 => exact encodeCommand_ne_refused _ s r
  | decodeB10 | decodeB45 | decodeB94 => exact decodeCommand_ne_refused _ s r
  | validateB10 | validateB45 | validateB94 => exact validateCommand_ne_refused _ s r
  | symlenB10 | symlenB45 | symlenB94 => exact symLenCommand_ne_refused _ s r
  | bytelenB10 | bytelenB45 | bytelenB94 => exact byteLenCommand_ne_refused _ s r

theorem runCommand_ne_refused (w : Word) (s : State) (r : Refusal) : runCommand w s ≠ .refused r := by
  rcases runCommand_cases w s with ⟨-, -, hr⟩ | ⟨i, -, hr⟩
  · simp [hr]
  · rw [hr]
    exact exec_ne_refused i (s.setCmd w) r

end Sys2Proof.Machine
end

section
/-! The host interface (10_state.md R31, R50): what each host operation answers, one lemma per case of it, and what it
keeps. The obligations on host operations and on the step are read off these lemmas. -/

namespace Sys2Proof.Machine

/-! ## Writing a register -/

/-- The width of each register (10_state.md R21). -/
theorem regWidth_of_le {r : Nat} (h : r ≤ 8) : WellFormed.regWidth r = some (if r = 7 ∨ r = 8 then 64 else 32) := by
  interval_cases r <;> rfl

theorem regWidth_of_gt {r : Nat} (h : 8 < r) : WellFormed.regWidth r = none := by
  unfold WellFormed.regWidth
  split <;> simp at h ⊢

theorem hostOp_writeReg_fits {r v width : Nat} (hw : WellFormed.regWidth r = some width) (hv : v < 2 ^ width)
    (s : State) : hostOp (.writeReg r v) s = storeReg r v s := by
  simp [hostOp, hostWriteReg, hw, hv]

theorem hostOp_writeReg_tooWide {r v width : Nat} (hw : WellFormed.regWidth r = some width) (hv : 2 ^ width ≤ v)
    (s : State) : hostOp (.writeReg r v) s = .refused (.valueTooWide r v) := by
  simp [hostOp, hostWriteReg, hw, hv]

theorem hostOp_writeReg_noSuchRegister {r : Nat} (hw : WellFormed.regWidth r = none) (v : Nat) (s : State) :
    hostOp (.writeReg r v) s = .refused (.noSuchRegister r) := by
  simp [hostOp, hostWriteReg, hw]

/-- A register write that answers a next state has stored a fitting value. -/
theorem storeReg_of_hostOp_writeReg {r v : Nat} {s t : State} (h : hostOp (.writeReg r v) s = .next t) :
    ∃ width, WellFormed.regWidth r = some width ∧ v < 2 ^ width ∧ storeReg r v s = .next t := by
  cases hw : WellFormed.regWidth r with
  | none => simp [hostOp_writeReg_noSuchRegister hw] at h
  | some width =>
    by_cases hv : v < 2 ^ width
    · exact ⟨width, rfl, hv, hostOp_writeReg_fits hw hv s ▸ h⟩
    · simp [hostOp_writeReg_tooWide hw (Nat.le_of_not_lt hv)] at h

/-- A write of any register but CMD completes. -/
theorem storeReg_answers {r : Nat} (hr : r ≠ 0) (v : Nat) (s : State) : ∃ t, storeReg r v s = .next t := by
  unfold storeReg
  split
  · contradiction
  all_goals exact ⟨_, rfl⟩

theorem storeReg_ne_refused (r v : Nat) (s : State) (x : Refusal) : storeReg r v s ≠ .refused x := by
  by_cases hr : r = 0
  · subst hr
    exact runCommand_ne_refused (BitVec.ofNat 32 v) s x
  · obtain ⟨t, ht⟩ := storeReg_answers hr v s
    simp [ht]

/-- A write of any register but CMD changes operand registers alone. -/
theorem storeReg_frame {r v : Nat} {s t : State} (hr : r ≠ 0) (h : storeReg r v s = .next t) :
    t = { s with src := t.src, len := t.len, dst := t.dst, cap := t.cap, off := t.off, val := t.val } := by
  rcases storeReg_cases h with ⟨h0, -⟩ | ⟨src, len, dst, cap, off, val, rfl⟩
  · contradiction
  · rfl

/-- A 32-bit register reads as the number written to it. -/
theorem zext_ofNat {v : Nat} (h : v < 2 ^ 32) : (BitVec.ofNat 32 v).setWidth 64 = BitVec.ofNat 64 v := by
  rw [← BitVec.ofNat_toNat, BitVec.toNat_ofNat, Nat.mod_eq_of_lt h]

/-- An operand register reads as the value just written to it (10_state.md R31). -/
theorem readReg_of_storeReg {r v : Nat} {s t : State} (hlo : 2 ≤ r) (hhi : r ≤ 7)
    (hv : v < 2 ^ (if r = 7 then 64 else 32)) (h : storeReg r v s = .next t) :
    t.readReg r = some (BitVec.ofNat 64 v) := by
  by_cases h7 : r = 7
  · subst h7
    simp only [storeReg, Host.Outcome.next.injEq] at h
    subst h
    rfl
  · rw [if_neg h7] at hv
    rw [← zext_ofNat hv]
    have : r ≤ 6 := by omega
    interval_cases r
    all_goals
      simp only [storeReg, Host.Outcome.next.injEq] at h
      subst h
      rfl

/-- A write of any register but CMD leaves every other register's reading alone (10_state.md R31). -/
theorem readReg_of_storeReg_ne {r r' v : Nat} {s t : State} (hr : r ≠ 0) (h : storeReg r v s = .next t)
    (hne : r' ≠ r) : t.readReg r' = s.readReg r' := by
  unfold storeReg at h
  split at h
  · contradiction
  all_goals
    simp only [Host.Outcome.next.injEq] at h
    subst h
    unfold State.readReg
    split <;> simp_all [State.statusCode]

/-- Settles O7: each clause is one case of a register write. -/
theorem hostWritesRegister : Obligations.HostWritesRegister := by
  intro s r v
  refine ⟨fun hlo hhi hv => ?_, ?_, fun hr => ?_, fun hr hv => ?_, ?_⟩
  · have hr0 : r ≠ 0 := by omega
    have hr8 : r ≠ 8 := by omega
    obtain ⟨t, ht⟩ := storeReg_answers hr0 v s
    have hw := regWidth_of_le (Nat.le_succ_of_le hhi)
    simp only [hr8, or_false] at hw
    have hreads := readReg_of_storeReg hlo hhi hv ht
    have hothers (r' : Nat) (hne : r' ≠ r) := readReg_of_storeReg_ne hr0 ht hne
    have hframe := storeReg_frame hr0 ht
    refine ⟨t, (hostOp_writeReg_fits hw hv s).trans ht, hreads, hothers, ?_⟩
    rw [hframe]
    exact ⟨rfl, rfl, rfl, rfl⟩
  · rintro (⟨rfl, hv⟩ | ⟨rfl, hv⟩)
    · exact hostOp_writeReg_fits (regWidth_of_le (by decide)) hv s
    · exact hostOp_writeReg_fits (regWidth_of_le (by decide)) hv s
  · exact hostOp_writeReg_noSuchRegister (regWidth_of_gt hr) v s
  · exact hostOp_writeReg_tooWide (regWidth_of_le hr) hv s
  · rintro rfl hv i hi
    rw [hostOp_writeReg_fits (regWidth_of_le (by decide)) hv s]
    change runCommand (BitVec.ofNat 32 v) s = exec i (s.setCmd (BitVec.ofNat 32 v))
    rw [runCommand, hi]

/-! ## Reading a register -/

/-- The registers the host can read are those of R21, each of some width. -/
theorem readReg_isSome_eq (s : State) (r : Nat) : (s.readReg r).isSome = (WellFormed.regWidth r).isSome := by
  by_cases hr : r ≤ 8
  · interval_cases r <;> rfl
  · unfold State.readReg
    split <;> simp [regWidth_of_gt (Nat.lt_of_not_le hr)] at hr ⊢

theorem hostOp_readReg_of_some {r : Nat} {s : State} {v : DWord} (h : s.readReg r = some v) :
    hostOp (.readReg r) s = .next (s.recordValue v) := by
  simp [hostOp, hostReadReg, h]

theorem hostOp_readReg_of_none {r : Nat} {s : State} (h : s.readReg r = none) :
    hostOp (.readReg r) s = .refused (.noSuchRegister r) := by
  simp [hostOp, hostReadReg, h]

theorem readReg_of_gt {r : Nat} (h : 8 < r) (s : State) : s.readReg r = none := by
  rw [← Option.not_isSome_iff_eq_none, readReg_isSome_eq, regWidth_of_gt h]
  simp

/-- Where STATUS[31:4] is 0, a register reads as its value (10_state.md R23, R31). -/
theorem readReg_regNumber {s : State} (h : s.status.toNat < 16) (reg : RegName) :
    s.readReg (regNumber reg) = some (BitVec.ofNat 64 (s.regValue reg)) := by
  cases reg with
  | status => simp [State.readReg, regNumber, State.regValue, status_toNat_eq_code s h]
  | cmd | src | len | dst | cap | off | val | res => simp [State.readReg, regNumber, State.regValue]

/-- Settles O8: a read records the register's reading, which is its value. -/
theorem hostReadsRegister : Obligations.HostReadsRegister := by
  intro s hs
  have hread (reg : RegName) : hostOp (.readReg (regNumber reg)) s =
      .next (s.recordValue (BitVec.ofNat 64 (s.regValue reg))) := hostOp_readReg_of_some (readReg_regNumber hs reg)
  refine ⟨?_, fun r hr => hostOp_readReg_of_none (readReg_of_gt hr s)⟩
  simp only [List.forall_mem_cons]
  exact ⟨hread .cmd, hread .status, hread .src, hread .len, hread .dst, hread .cap, hread .off, hread .val, hread .res,
    by simp⟩

/-! ## MEM and reset -/

theorem hostOp_writeMem_inside {a b : Nat} {s : State} (ha : a < s.memSize) (hb : b < 256) :
    hostOp (.writeMem a b) s = .next (s.memWrite a [BitVec.ofNat 8 b]) := by
  simp [hostOp, hostWriteMem, ha, hb, State.memWrite, Memory.writeBytes]

theorem hostOp_writeMem_noSuchAddress {a : Nat} {s : State} (ha : ¬a < s.memSize) (b : Nat) :
    hostOp (.writeMem a b) s = .refused (.noSuchAddress a) := by
  simp [hostOp, hostWriteMem, ha]

theorem hostOp_writeMem_byteTooWide {a b : Nat} {s : State} (ha : a < s.memSize) (hb : ¬b < 256) :
    hostOp (.writeMem a b) s = .refused (.byteTooWide b) := by
  simp [hostOp, hostWriteMem, ha, hb]

theorem hostOp_readMem_written {a : Nat} {b : Byte} {s : State} (ha : a < s.memSize) (h : s.mem.read a = some b) :
    hostOp (.readMem a) s = .next (s.recordValue (b.setWidth 64)) := by
  simp [hostOp, hostReadMem, ha, h]

theorem hostOp_readMem_unwritten {a : Nat} {s : State} (ha : a < s.memSize) (h : s.mem.read a = none) :
    hostOp (.readMem a) s = .next s.recordFree := by
  simp [hostOp, hostReadMem, ha, h]

theorem hostOp_readMem_noSuchAddress {a : Nat} {s : State} (ha : ¬a < s.memSize) :
    hostOp (.readMem a) s = .refused (.noSuchAddress a) := by
  simp [hostOp, hostReadMem, ha]

theorem hostOp_reset (s : State) : hostOp .reset s = .next (State.resetWith s.memSize s.host) := rfl

/-- Settles O13: reset answers the block's reset state with the old MEM_SIZE and host's side. -/
theorem resetKeepsInstanceAndHost : Obligations.ResetKeepsInstanceAndHost := by
  intro s t h
  rw [hostOp_reset, Host.Outcome.next.injEq] at h
  subst h
  exact ⟨rfl, rfl⟩

/-! ## Which operations are refused -/

theorem hostOp_refused_of_not_wf {op : HostOp} {s : State} (h : op.wf s.memSize = false) :
    ∃ r, hostOp op s = .refused r := by
  cases op with
  | writeReg r v =>
    cases hw : WellFormed.regWidth r with
    | none => exact ⟨_, hostOp_writeReg_noSuchRegister hw v s⟩
    | some width =>
      have hv : 2 ^ width ≤ v := by simpa [HostOp.wf, hw] using h
      exact ⟨_, hostOp_writeReg_tooWide hw hv s⟩
  | readReg r =>
    have hnone : s.readReg r = none := by simpa [HostOp.wf, ← readReg_isSome_eq s r] using h
    exact ⟨_, hostOp_readReg_of_none hnone⟩
  | writeMem a b =>
    by_cases ha : a < s.memSize
    · have hb : ¬b < 256 := by simpa [HostOp.wf, ha] using h
      exact ⟨_, hostOp_writeMem_byteTooWide ha hb⟩
    · exact ⟨_, hostOp_writeMem_noSuchAddress ha b⟩
  | readMem a =>
    have ha : ¬a < s.memSize := by simpa [HostOp.wf] using h
    exact ⟨_, hostOp_readMem_noSuchAddress ha⟩
  | reset => cases h

/-- What a host operation inside the interface answers: a register write stores, and any other operation completes. -/
theorem hostOp_of_wf {op : HostOp} {s : State} (h : op.wf s.memSize = true) :
    (∃ r v, op = .writeReg r v ∧ hostOp op s = storeReg r v s) ∨
      (∃ a bs, hostOp op s = .next (s.memWrite a bs)) ∨ (∃ v, hostOp op s = .next (s.recordValue v)) ∨
      hostOp op s = .next s.recordFree ∨
      (op = .reset ∧ hostOp op s = .next (State.resetWith s.memSize s.host)) := by
  cases op with
  | writeReg r v =>
    cases hw : WellFormed.regWidth r with
    | none => simp [HostOp.wf, hw] at h
    | some width =>
      have hv : v < 2 ^ width := by simpa [HostOp.wf, hw] using h
      exact .inl ⟨r, v, rfl, hostOp_writeReg_fits hw hv s⟩
  | readReg r =>
    obtain ⟨v, hv⟩ := Option.isSome_iff_exists.mp ((readReg_isSome_eq s r).trans h)
    exact .inr (.inr (.inl ⟨v, hostOp_readReg_of_some hv⟩))
  | writeMem a b =>
    obtain ⟨ha, hb⟩ : a < s.memSize ∧ b < 256 := by simpa [HostOp.wf] using h
    exact .inr (.inl ⟨_, _, hostOp_writeMem_inside ha hb⟩)
  | readMem a =>
    have ha : a < s.memSize := by simpa [HostOp.wf] using h
    cases hm : s.mem.read a with
    | none => exact .inr (.inr (.inr (.inl (hostOp_readMem_unwritten ha hm))))
    | some b => exact .inr (.inr (.inl ⟨_, hostOp_readMem_written ha hm⟩))
  | reset => exact .inr (.inr (.inr (.inr ⟨rfl, hostOp_reset s⟩)))

theorem hostOp_ne_refused_of_wf {op : HostOp} {s : State} (h : op.wf s.memSize = true) (x : Refusal) :
    hostOp op s ≠ .refused x := by
  rcases hostOp_of_wf h with ⟨r, v, -, hop⟩ | ⟨a, bs, hop⟩ | ⟨v, hop⟩ | hop | ⟨-, hop⟩
  · rw [hop]
    exact storeReg_ne_refused r v s x
  all_goals simp [hop]

theorem wf_of_hostOp_next {op : HostOp} {s t : State} (h : hostOp op s = .next t) : op.wf s.memSize = true := by
  by_contra hwf
  obtain ⟨r, hr⟩ := hostOp_refused_of_not_wf (Bool.eq_false_of_not_eq_true hwf)
  simp [hr] at h

/-- Settles O11: outside the interface each operation has its refusal, and inside it none is refused. -/
theorem refusedExactlyOutsideInterface : Obligations.RefusedExactlyOutsideInterface := by
  intro s op
  constructor
  · rintro ⟨r, hr⟩
    by_contra hwf
    exact hostOp_ne_refused_of_wf (Bool.eq_true_of_not_eq_false hwf) r hr
  · exact hostOp_refused_of_not_wf

/-! ## What host operations keep -/

/-- A CMD write that answers a next state leaves its word in CMD, whatever the command did (10_state.md R22). -/
theorem hostOp_writeCmd_cmd {v : Nat} {s t : State} (h : hostOp (.writeReg 0 v) s = .next t) :
    v < 2 ^ 32 ∧ t.cmd = BitVec.ofNat 32 v := by
  obtain ⟨width, hw, hv, hstore⟩ := storeReg_of_hostOp_writeReg h
  cases hw
  have hrun : runCommand (BitVec.ofNat 32 v) s = .next t := hstore
  exact ⟨hv, by rw [runCommand_frame hrun]⟩

/-- Only a CMD write and a reset change CMD. -/
theorem hostOp_cmd {op : HostOp} {s t : State} (hcmd : ∀ v, op ≠ .writeReg 0 v) (hreset : op ≠ .reset)
    (h : hostOp op s = .next t) : t.cmd = s.cmd := by
  rcases hostOp_of_wf (wf_of_hostOp_next h) with ⟨r, v, rfl, hop⟩ | ⟨a, bs, hop⟩ | ⟨v, hop⟩ | hop | ⟨hop, -⟩
  · have hr : r ≠ 0 := by
      rintro rfl
      exact hcmd v rfl
    have hstore : storeReg r v s = .next t := hop ▸ h
    rw [storeReg_frame hr hstore]
  · rw [hop, Host.Outcome.next.injEq] at h
    rw [← h, memWrite_cmd]
  · rw [hop, Host.Outcome.next.injEq] at h
    rw [← h, recordValue_cmd]
  · rw [hop, Host.Outcome.next.injEq] at h
    rw [← h, recordFree_cmd]
  · contradiction

/-- Settles O14: a CMD write leaves its word in CMD, and only a reset changes CMD otherwise. -/
theorem commandWordReadsBack : Obligations.CommandWordReadsBack := by
  intro s t op h
  refine ⟨?_, fun hcmd hreset => hostOp_cmd hcmd hreset h⟩
  rintro v rfl
  obtain ⟨hv, hword⟩ := hostOp_writeCmd_cmd h
  refine ⟨hword, ?_⟩
  rw [State.readReg, hword, zext_ofNat hv]

/-- A host operation keeps the operations to come and the host pc, and the record only grows. -/
theorem hostOp_host {op : HostOp} {s t : State} (h : hostOp op s = .next t) :
    t.host.pending = s.host.pending ∧ t.host.pc = s.host.pc ∧ s.host.record <+: t.host.record := by
  rcases hostOp_cases h with ⟨v, -, -, hrun⟩ | ⟨src, len, dst, cap, off, val, rfl⟩ | ⟨v, rfl⟩ | rfl |
    ⟨a, b, -, -, rfl⟩ | rfl
  · rw [runCommand_frame hrun]
    exact ⟨rfl, rfl, List.prefix_rfl⟩
  · exact ⟨rfl, rfl, List.prefix_rfl⟩
  · exact ⟨rfl, rfl, List.prefix_append _ _⟩
  · exact ⟨rfl, rfl, List.prefix_append _ _⟩
  · exact ⟨rfl, rfl, List.prefix_rfl⟩
  · exact ⟨rfl, rfl, List.prefix_rfl⟩

/-! ## Steps -/

/-- Settles O5: the step performs the operation at the head of the list, or idles. -/
theorem stepPerformsNextHostOperation : Obligations.StepPerformsNextHostOperation :=
  fun _ => ⟨fun _ _ hp => step_cons hp, step_nil⟩

/-- Settles O6: the host moves on before the operation, and the operation keeps where it stands. -/
theorem hostPcCountsOperations : Obligations.HostPcCountsOperations := by
  intro s t op rest hp h
  rw [step_cons hp] at h
  exact hostOp_host h

end Sys2Proof.Machine
end

section
/-! The alphabets (10_state.md R41 to R43). Two are runs of consecutive code units, so one lemma on such an alphabet gives
the digit values and the symbols of both; the base-45 alphabet is the list of the codes of its string. -/

namespace Sys2Proof

/-- In an alphabet that is a run of n code units from base on, the value of a member is its distance from base. -/
theorem digitOf_of_run {c : Codec} {base n : Nat} (hfit : base + n ≤ 256)
    (hrun : c.alphabet = (List.range n).map (fun d => BitVec.ofNat 8 (base + d))) (u : Byte) :
    c.digitOf u = if base ≤ u.toNat ∧ u.toNat < base + n then some (u.toNat - base) else none := by
  have hplace (d : Nat) : c.digitOf u = some d ↔ d < n ∧ base + d = u.toNat := by
    rw [digitOf_eq_some_iff, hrun, List.getElem?_eq_some_iff]
    simp only [List.length_map, List.length_range, List.getElem_map, List.getElem_range, exists_prop]
    refine and_congr_right fun hd => ?_
    rw [← BitVec.toNat_inj, BitVec.toNat_ofNat, Nat.mod_eq_of_lt (by omega)]
  ext d
  rw [hplace]
  split <;> simp <;> omega

/-- In such an alphabet the symbol of a value is base more than the value. -/
theorem symbolOf_of_run {c : Codec} {base n : Nat}
    (hrun : c.alphabet = (List.range n).map (fun d => BitVec.ofNat 8 (base + d))) {d : Nat} (hd : d < n) :
    c.symbolOf d = BitVec.ofNat 8 (base + d) := by
  simp [Codec.symbolOf, hrun, hd]

/-- The code units of the base-45 alphabet are the codes of its string, in order (10_state.md R42). -/
theorem alphabet45_codes : alphabet45.map BitVec.toNat =
    "0123456789ABCDEFGHIJKLMNOPQRSTUVWXYZ $%*+-./:".toList.map Char.toNat := by decide

theorem digitOf_base45 (u : Byte) : (.base45 : Codec).digitOf u = (alphabet45.map BitVec.toNat).idxOf? u.toNat := by
  have hinj : Function.Injective (BitVec.toNat : Byte → Nat) := fun _ _ => BitVec.eq_of_toNat_eq
  have hnodup : (alphabet45.map BitVec.toNat).Nodup := (alphabet_nodup .base45).map hinj
  ext d
  rw [digitOf_eq_some_iff, idxOf?_eq_some_iff_of_nodup hnodup, List.getElem?_map, ← Option.map_some,
    (Option.map_injective hinj).eq_iff, Codec.alphabet]

theorem symbolOf_base45 {d : Nat} (hd : d < 45) :
    some ((.base45 : Codec).symbolOf d).toNat = (alphabet45.map BitVec.toNat)[d]? := by
  have hlen : alphabet45.length = 45 := alphabet_length .base45
  rw [← hlen] at hd
  simp [Codec.symbolOf, Codec.alphabet, hd]

/-- Settles O33: the base-94 alphabet is the run of 94 code units from 33 on. -/
theorem base94Alphabet : Obligations.Base94Alphabet := by
  have hdigit (u : Byte) := digitOf_of_run (c := .base94) (base := 33) (n := 94) (by decide) rfl u
  refine ⟨fun u => ?_, fun d hd => ?_, ?_, ?_⟩
  · simp only [hdigit, Nat.lt_succ_iff]
  · rw [symbolOf_of_run (c := .base94) (base := 33) (n := 94) rfl hd, Nat.add_comm]
  · rw [Codec.inAlphabet, hdigit]
    rfl
  · rw [Codec.inAlphabet, hdigit]
    rfl

/-- Settles O34: the base-10 alphabet is the run of ten code units from 0x30 on, the base-45 alphabet the codes of its
string. -/
theorem base10AndBase45Alphabets : Obligations.Base10AndBase45Alphabets := by
  unfold Obligations.Base10AndBase45Alphabets
  rw [← alphabet45_codes]
  refine ⟨fun u => ⟨?_, digitOf_base45 u⟩, fun d hd => ?_, fun d hd => symbolOf_base45 hd⟩
  · rw [digitOf_of_run (base := 0x30) (n := 10) (by decide) rfl]
    simp only [Nat.lt_succ_iff]
  · exact symbolOf_of_run rfl hd

end Sys2Proof
end

section
/-! The frame of MEM (20_memory.md R66, R68, R72). One lemma per command template says which bytes it keeps, by the lemma
that says what the template can do. A command that stores nothing has the empty stored range, so one statement over all
commands, that every byte outside the stored range stays, gives both the frame of the storing commands and that of the
others. -/

namespace Sys2Proof.Machine

/-! ## A command that fails -/

/-- A command that completes leaves the code 0. -/
theorem Completes.statusCode {s t : State} (h : Completes s t) : t.statusCode = 0 := by
  rcases h with ⟨a, bs, -, -, -, rfl | ⟨n, rfl⟩⟩ | ⟨n, rfl⟩ <;> exact statusCode_setCode _ codeOk

/-- A command that ends with a code other than 0 has written that code and nothing else (60_exceptions.md R246). -/
theorem exec_eq_setCode_of_failed {i : Instr} {s t : State} (h : exec i s = .next t) (hcode : t.statusCode ≠ 0) :
    t = s.setCode t.statusCode := by
  rcases exec_cases h with ⟨e, rfl⟩ | hdone
  · rw [statusCode_setCode]
  · exact absurd hdone.statusCode hcode

/-! ## The templates that store nothing -/

theorem execRead56_mem {s t : State} (h : execRead56 s = .next t) : t.mem = s.mem := by
  rcases execRead56_cases h with rfl | ⟨-, -, bs, -, rfl⟩
  · rw [setCode_mem]
  · rw [setCode_mem, setRes_mem]

theorem radixDecCommand_mem {c : Codec} {s t : State} (h : radixDecCommand c s = .next t) : t.mem = s.mem := by
  rcases radixDecCommand_cases h with rfl | ⟨-, -, syms, -, ⟨-, rfl⟩ | ⟨v, -, rfl⟩⟩
  · rw [setCode_mem]
  · rw [setCode_mem]
  · rw [setCode_mem, setRes_mem]

theorem validateCommand_mem {c : Codec} {s t : State} (h : validateCommand c s = .next t) : t.mem = s.mem := by
  rcases validateCommand_cases h with rfl | ⟨-, syms, -, rfl⟩
  · rw [setCode_mem]
  · rw [setCode_mem, setRes_mem]

theorem symLenCommand_mem {c : Codec} {s t : State} (h : symLenCommand c s = .next t) : t.mem = s.mem := by
  rw [symLenCommand, complete_eq_next_iff] at h
  rw [h, setCode_mem, setRes_mem]

theorem byteLenCommand_mem {c : Codec} {s t : State} (h : byteLenCommand c s = .next t) : t.mem = s.mem := by
  rcases byteLenCommand_cases h with ⟨-, rfl⟩ | ⟨n, -, rfl⟩
  · rw [setCode_mem]
  · rw [setCode_mem, setRes_mem]

/-! ## The templates that store -/

theorem execWrite56_read_outside {s t : State} {a : Nat} (h : execWrite56 s = .next t)
    (ha : a < s.dstN + s.offN ∨ s.dstN + s.offN + 7 ≤ a) : t.mem.read a = s.mem.read a := by
  rcases execWrite56_cases h with rfl | ⟨-, -, -, rfl⟩
  · rw [setCode_mem]
  · rw [setCode_mem, memWrite_mem]
    exact read_writeBytes_outside _ _ (by rwa [beBytes_length])

theorem radixEncCommand_read_outside {c : Codec} {s t : State} {a : Nat} (h : radixEncCommand c s = .next t)
    (ha : a < s.dstN ∨ s.dstN + s.lenN ≤ a) : t.mem.read a = s.mem.read a := by
  rcases radixEncCommand_cases h with rfl | ⟨-, -, -, -, rfl⟩
  · rw [setCode_mem]
  · rw [setCode_mem, setRes_mem, memWrite_mem]
    exact read_writeBytes_outside _ _ (by rwa [render_length])

theorem encodeCommand_read_outside {c : Codec} {s t : State} {a : Nat} (h : encodeCommand c s = .next t)
    (ha : a < s.dstN ∨ s.dstN + symLen c s.lenN ≤ a) : t.mem.read a = s.mem.read a := by
  rcases encodeCommand_cases h with rfl | ⟨-, -, -, bs, hbs, rfl⟩
  · rw [setCode_mem]
  · rw [setCode_mem, setRes_mem, memWrite_mem]
    exact read_writeBytes_outside _ _ (by rwa [encodeSeq_length, readBytes_length hbs])

/-- Where LEN is no length of a text, byteLen is undefined and the command stores nothing. -/
theorem decodeCommand_read_outside {c : Codec} {s t : State} {a : Nat} (h : decodeCommand c s = .next t)
    (ha : a < s.dstN ∨ s.dstN + (byteLen c s.lenN).getD 0 ≤ a) : t.mem.read a = s.mem.read a := by
  rcases decodeCommand_cases h with rfl | ⟨-, -, syms, hsyms, ⟨-, rfl⟩ | ⟨bs, hbs, -, rfl⟩⟩
  · rw [setCode_mem]
  · rw [setCode_mem]
  · have hlen : byteLen c s.lenN = some bs.length := by rw [← readBytes_length hsyms, decodeSeq_length hbs]
    rw [hlen, Option.getD_some] at ha
    rw [setCode_mem, setRes_mem, memWrite_mem, read_writeBytes_outside _ _ ha]

/-- WRITE56 does not write RES (41_int56.md R107). -/
theorem execWrite56_res {s t : State} (h : execWrite56 s = .next t) : t.res = s.res := by
  rcases execWrite56_cases h with rfl | ⟨-, -, -, rfl⟩
  · rw [setCode_res]
  · rw [setCode_res, memWrite_res]

/-! ## All commands -/

/-- A command changes no byte outside its stored range (20_memory.md R66). -/
theorem exec_read_outside_storedRange {i : Instr} {s t : State} {a : Nat} (h : exec i s = .next t)
    (ha : a < (storedRange i s).1 ∨ (storedRange i s).1 + (storedRange i s).2 ≤ a) : t.mem.read a = s.mem.read a := by
  cases i with
  | read56 => rw [execRead56_mem h]
  | write56 => exact execWrite56_read_outside h ha
  | radixencB10 | radixencB45 | radixencB94 => exact radixEncCommand_read_outside h ha
  | radixdecB10 | radixdecB45 | radixdecB94 => rw [radixDecCommand_mem h]
  | encodeB10 | encodeB45 | encodeB94 => exact encodeCommand_read_outside h ha
  | decodeB10 | decodeB45 | decodeB94 => exact decodeCommand_read_outside h ha
  | validateB10 | validateB45 | validateB94 => rw [validateCommand_mem h]
  | symlenB10 | symlenB45 | symlenB94 => rw [symLenCommand_mem h]
  | bytelenB10 | bytelenB45 | bytelenB94 => rw [byteLenCommand_mem h]

/-- Settles O26: nothing outside the stored range changes, and a command that fails writes its code alone. -/
theorem storingCommandsFrame : Obligations.StoringCommandsFrame := by
  intro i s t _ h
  refine ⟨fun a ha => exec_read_outside_storedRange h ha, fun hcode a => ?_, ?_⟩
  · rw [exec_eq_setCode_of_failed h hcode, setCode_mem]
  · rintro rfl
    exact execWrite56_res h

/-- Settles O27: the stored range of these commands is empty, and a command that fails writes its code alone. -/
theorem nonStoringCommandsFrame : Obligations.NonStoringCommandsFrame := by
  intro i s t hi h
  have hempty : storedRange i s = (0, 0) := by fin_cases hi <;> rfl
  refine ⟨fun a => exec_read_outside_storedRange h (.inr ?_), fun hcode => ?_⟩
  · rw [hempty]
    exact Nat.zero_le a
  · rw [exec_eq_setCode_of_failed h hcode, setCode_res]

/-! ## Host accesses -/

/-- Settles O9: a host write is a block write of one byte, and a host read of a written byte records it. -/
theorem hostMemoryAccess : Obligations.HostMemoryAccess := by
  intro s a
  refine ⟨fun b ha hb => ?_, fun b ha hread => hostOp_readMem_written ha hread⟩
  exact ⟨_, hostOp_writeMem_inside ha hb, rfl, read_write_same _ _ _, fun a' ha' => read_write_other _ _ ha'⟩

end Sys2Proof.Machine
end

section
/-! The command words (30_encoding.md R80 to R87): the fields of a word and their tables, each inverted once. A word is its
three fields, so a decoded word is the encoding of its command; that every encoding decodes is the table of R87. -/

namespace Sys2Proof

/-! ## The fields of a word and their tables -/

theorem opField_toNat (w : Word) : (Decode.opField w).toNat = w.toNat % 2 ^ 8 := by
  simp [Decode.opField]

theorem codecField_toNat (w : Word) : (Decode.codecField w).toNat = w.toNat / 2 ^ 8 % 4 := by
  simp [Decode.codecField, Nat.shiftRight_eq_div_pow]

theorem rsvdField_toNat (w : Word) : (Decode.rsvdField w).toNat = w.toNat / 2 ^ 10 := by
  have hw : w.toNat < 2 ^ 32 := w.isLt
  simp only [Decode.rsvdField, BitVec.extractLsb'_toNat, Nat.shiftRight_eq_div_pow]
  omega

/-- A word is RSVD, CODEC and OP side by side (30_encoding.md R80). -/
theorem fields_append (w : Word) : (Decode.rsvdField w ++ Decode.codecField w ++ Decode.opField w : BitVec 32) = w := by
  apply BitVec.eq_of_toNat_eq
  rw [BitVec.toNat_append, BitVec.toNat_append, rsvdField_toNat, codecField_toNat, opField_toNat,
    ← Nat.shiftLeft_add_eq_or_of_lt (by omega), ← Nat.shiftLeft_add_eq_or_of_lt (by omega)]
  simp only [Nat.shiftLeft_eq]
  omega

/-- The code of an operation (30_encoding.md R81). -/
def Decode.Op.bits : Decode.Op → BitVec 8
  | .read56 => 0x01
  | .write56 => 0x02
  | .radixenc => 0x10
  | .radixdec => 0x11
  | .encode => 0x20
  | .decode => 0x21
  | .validate => 0x22
  | .symlen => 0x23
  | .bytelen => 0x24

/-- The selector of a codec (30_encoding.md R82). -/
def Codec.bits : Codec → BitVec 2
  | .base10 => 0b00
  | .base45 => 0b01
  | .base94 => 0b10

/-- No second code names an operation. -/
theorem eq_bits_of_opOf {b : BitVec 8} {op : Decode.Op} (h : Decode.opOf b = some op) : b = op.bits := by
  apply BitVec.eq_of_toNat_eq
  unfold Decode.opOf at h
  split at h <;> cases h <;> assumption

/-- No second selector names a codec. -/
theorem eq_bits_of_codecOf {b : BitVec 2} {c : Codec} (h : Decode.codecOf b = some c) : b = c.bits := by
  apply BitVec.eq_of_toNat_eq
  unfold Decode.codecOf at h
  split at h <;> cases h <;> assumption

/-- A row of the table is the command with that operation's code and that codec's selector (30_encoding.md R87). -/
theorem bits_of_row {op : Decode.Op} {c : Codec} {i : Instr} (h : Decode.row op c = .ok i) :
    i.opBits = op.bits ∧ i.codecBits = c.bits := by
  cases op <;> cases c <;> cases h <;> exact ⟨rfl, rfl⟩

/-- The codes of R81 are those to which an operation belongs. -/
theorem opOf_isSome_iff (b : BitVec 8) : (Decode.opOf b).isSome ↔ b.toNat ∈ WellFormed.assignedOps := by
  unfold Decode.opOf
  split <;> simp_all [WellFormed.assignedOps]

/-- Every selector but 0b11 is a codec's (30_encoding.md R82). -/
theorem codecOf_isSome_iff (b : BitVec 2) : (Decode.codecOf b).isSome ↔ b.toNat ≠ 3 := by
  revert b
  decide

/-- Every operation and codec name a row, but for READ56 and WRITE56, which exist with selector 0b00 alone. -/
theorem row_of_helperCodecClear {op : Decode.Op} {c : Codec}
    (h : op.bits.toNat ∈ [0x01, 0x02] → c.bits.toNat = 0) : ∃ i, Decode.row op c = .ok i := by
  cases op with
  | read56 | write56 =>
    cases c with
    | base10 => exact ⟨_, rfl⟩
    | base45 | base94 => exact absurd (h (by decide)) (by decide)
  | radixenc | radixdec | encode | decode | validate | symlen | bytelen => cases c <;> exact ⟨_, rfl⟩

/-! ## Decoding -/

/-- What a decoded word holds in its fields: the checks of 30_encoding.md R85, passed. -/
theorem decode_eq_ok_iff (w : Word) (i : Instr) :
    decode w = .ok i ↔ Decode.rsvdField w = 0 ∧ ∃ op c, Decode.opOf (Decode.opField w) = some op ∧
      Decode.codecOf (Decode.codecField w) = some c ∧ Decode.row op c = .ok i := by
  unfold decode
  by_cases hr : Decode.rsvdField w = 0
  · rw [if_neg (not_not.mpr hr)]
    cases Decode.opOf (Decode.opField w) <;> cases Decode.codecOf (Decode.codecField w) <;> simp [hr]
  · rw [if_pos hr]
    simp only [hr, false_and, reduceCtorEq]

theorem encode_of_decode {w : Word} {i : Instr} (h : decode w = .ok i) : encode i = w := by
  obtain ⟨hrsvd, op, c, hop, hcodec, hrow⟩ := (decode_eq_ok_iff w i).mp h
  obtain ⟨hopBits, hcodecBits⟩ := bits_of_row hrow
  calc encode i = (0#22 ++ c.bits ++ op.bits : BitVec 32) := by rw [encode, hopBits, hcodecBits]
    _ = (Decode.rsvdField w ++ Decode.codecField w ++ Decode.opField w : BitVec 32) := by
      rw [hrsvd, eq_bits_of_opOf hop, eq_bits_of_codecOf hcodec]; rfl
    _ = w := fields_append w

/-- Every command's word is legal and decodes to it: the rows of 30_encoding.md R87. -/
theorem encodedWord (i : Instr) : Laws.EncodedWord.Statement i := by
  open Laws.EncodedWord in
  exact i.rec read56 write56 radixencB10 radixencB45 radixencB94 radixdecB10 radixdecB45 radixdecB94
    encodeB10 decodeB10 validateB10 symlenB10 bytelenB10 encodeB45 decodeB45 validateB45 symlenB45 bytelenB45
    encodeB94 decodeB94 validateB94 symlenB94 bytelenB94

theorem decode_encode (i : Instr) : decode (encode i) = .ok i := (encodedWord i).2

/-- Settles O2: a decoded word is put together from the fields of its command, and the table gives the converse. -/
theorem decodeInvertsEncode : Obligations.DecodeInvertsEncode := by
  intro w i
  constructor
  · exact encode_of_decode
  · rintro rfl
    exact decode_encode i

/-- Settles O1: the words are the encodings of the commands of their rows, and so decode to them. -/
theorem commandWordTable : Obligations.CommandWordTable := by
  intro row hrow
  have hword : encode row.1 = row.2.1 ∧ row.1.mnemonic = row.2.2 := by
    revert row
    decide
  obtain ⟨hencode, hname⟩ := hword
  exact ⟨(decodeInvertsEncode _ _).mpr hencode, hencode, hname⟩

/-! ## Legal words -/

/-- The four defects of 30_encoding.md R84 are all that keeps a word from being legal. -/
theorem legalWord_iff (w : Word) : WellFormed.legalWord w = true ↔
    w.toNat / 2 ^ 10 = 0 ∧ w.toNat % 2 ^ 8 ∈ WellFormed.assignedOps ∧ w.toNat / 2 ^ 8 % 4 ≠ 3 ∧
      (w.toNat % 2 ^ 8 ∈ [0x01, 0x02] → w.toNat / 2 ^ 8 % 4 = 0) := by
  simp only [WellFormed.legalWord, WellFormed.reservedClear, WellFormed.opAssigned, WellFormed.codecAssigned,
    WellFormed.helperCodecClear, Bool.and_eq_true, and_assoc, beq_iff_eq, bne_iff_ne, List.contains_iff_mem,
    Bool.or_eq_true, Bool.not_eq_true', ← imp_iff_not_or, Bool.eq_false_iff]

theorem exists_decode_of_legalWord {w : Word} (h : WellFormed.legalWord w = true) : ∃ i, decode w = .ok i := by
  obtain ⟨hrsvd, hop, hcodec, hhelper⟩ := (legalWord_iff w).mp h
  rw [← rsvdField_toNat] at hrsvd
  rw [← opField_toNat] at hop hhelper
  rw [← codecField_toNat] at hcodec hhelper
  obtain ⟨op, hop⟩ := Option.isSome_iff_exists.mp ((opOf_isSome_iff _).mpr hop)
  obtain ⟨c, hc⟩ := Option.isSome_iff_exists.mp ((codecOf_isSome_iff _).mpr hcodec)
  rw [eq_bits_of_opOf hop, eq_bits_of_codecOf hc] at hhelper
  obtain ⟨i, hi⟩ := row_of_helperCodecClear hhelper
  exact ⟨i, (decode_eq_ok_iff w i).mpr ⟨BitVec.eq_of_toNat_eq hrsvd, op, c, hop, hc, hi⟩⟩

theorem legalWord_of_decode {w : Word} {i : Instr} (h : decode w = .ok i) : WellFormed.legalWord w = true := by
  rw [← encode_of_decode h]
  exact (encodedWord i).1

namespace Machine

/-- A write of a 32-bit value to CMD stores the word and runs or rejects it (30_encoding.md R85). -/
theorem hostOp_writeCmd {v : Nat} (hv : v < 2 ^ 32) (s : State) :
    hostOp (.writeReg 0 v) s = runCommand (BitVec.ofNat 32 v) s :=
  hostOp_writeReg_fits (regWidth_of_le (Nat.zero_le 8)) hv s

theorem runCommand_of_decode {w : Word} {i : Instr} (h : decode w = .ok i) (s : State) :
    runCommand w s = exec i (s.setCmd w) := by
  rw [runCommand, h]

/-- A word that is not legal writes its code and CMD, whatever the operands hold (60_exceptions.md R243). -/
theorem runCommand_of_not_legalWord {w : Word} (h : ¬WellFormed.legalWord w = true) (s : State) :
    runCommand w s = .next ((s.setCmd w).setCode Exn.illegalCommand.code) := by
  rcases runCommand_cases w s with ⟨-, -, hr⟩ | ⟨i, hi, -⟩
  · exact hr
  · exact absurd (legalWord_of_decode hi) h

/-- Settles O3: a defect is what makes a word no legal word, and a legal word decodes. -/
theorem illegalWordRaisesIllegalCommand : Obligations.IllegalWordRaisesIllegalCommand := by
  intro w s illegal
  have hlegal : illegal ↔ ¬WellFormed.legalWord w = true := by
    rw [legalWord_iff]
    simp only [illegal, WellFormed.assignedOps]
    tauto
  constructor
  · intro h
    refine ⟨(s.setCmd w).setCode Exn.illegalCommand.code, ?_, rfl, statusCode_setCode _ _, status_high_setCode _ _⟩
    rw [hostOp_writeCmd w.isLt, BitVec.ofNat_toNat, BitVec.setWidth_eq]
    exact runCommand_of_not_legalWord (hlegal.mp h) s
  · intro h
    obtain ⟨i, hi⟩ := exists_decode_of_legalWord (not_not.mp (mt hlegal.mpr h))
    exact ⟨i, hi, encode_of_decode hi⟩

/-- Settles O4: the step is the CMD write of the word, which decodes. -/
theorem stepRunsDecodedCommand : Obligations.StepRunsDecodedCommand := by
  intro s v rest i hp hv hi
  rw [step_cons hp, hostOp_writeCmd hv, runCommand_of_decode hi]
  rfl

end Machine

end Sys2Proof
end

section
/-! Printing and the host's assembly language (30_encoding.md R90 to R92). The eight printed digits are the converter's
digits in radix 16, most significant first, so their value is the word by the law of that converter. -/

namespace Sys2Proof.Machine

/-! ## Printing a word -/

/-- Digits written most significant first are read by Horner's rule. -/
theorem foldl_reverse_eq_digitsValue (N : Nat) (ds : List Nat) :
    ds.reverse.foldl (fun n d => n * N + d) 0 = digitsValue N ds := by
  rw [List.foldl_reverse]
  induction ds with
  | nil => rfl
  | cons d ds ih => rw [List.foldr_cons, ih, digitsValue, Nat.mul_comm, Nat.add_comm]

/-- The printed digits are those of the word in radix 16 (30_encoding.md R92). -/
theorem hex8_eq (w : Word) : hex8 w = (digits 16 w.toNat 8).reverse.map (fun d => (hexDigits[d]?).getD '0') := by
  simp [hex8, digits, List.range_succ]

theorem hexDigit_eq {d : Nat} (h : d < 16) :
    (hexDigits[d]?).getD '0' = ("0123456789ABCDEF".toList[d]?).getD ' ' := by
  interval_cases d <;> rfl

theorem printWord_of_decode {w : Word} {i : Instr} (h : decode w = .ok i) : printWord w = i.mnemonic.toList := by
  rw [printWord, h]

theorem printWord_of_reject {w : Word} {x : Decode.Reject} (h : decode w = .error x) :
    printWord w = "CMD 0x".toList ++ hex8 w := by
  rw [printWord, h]
  rfl

/-- Settles O15: the digits are those of the word in radix 16, and their value is the word. -/
theorem printedCommandWord : Obligations.PrintedCommandWord := by
  refine fun w => ⟨fun i hi => printWord_of_decode hi, fun x hx => ?_⟩
  have hlt (d : Nat) (hd : d ∈ (digits 16 w.toNat 8).reverse) : d < 16 :=
    digits_lt (by decide) (List.mem_reverse.mp hd)
  refine ⟨(digits 16 w.toNat 8).reverse, by simp, hlt, ?_, ?_⟩
  · rw [foldl_reverse_eq_digitsValue]
    exact digitsValue_digits (by decide) w.isLt
  · rw [printWord_of_reject hx, hex8_eq]
    exact congrArg _ (List.map_congr_left fun d hd => hexDigit_eq (hlt d hd))

/-! ## Expansions of the host's lines -/

/-- The j-th byte of a STBS goes to the j-th address from a on (30_encoding.md R91). -/
theorem storeBytesOps_eq (a : Nat) (bs : List Nat) :
    storeBytesOps a bs = (List.range bs.length).map (fun j => .writeMem (a + j) ((bs[j]?).getD 0)) := by
  induction bs generalizing a with
  | nil => rfl
  | cons b bs ih =>
    rw [storeBytesOps, ih, List.length_cons, List.range_succ_eq_map, List.map_cons, List.map_map]
    congr 1
    refine List.map_congr_left fun j _ => ?_
    simp [Nat.add_comm, Nat.add_left_comm]

/-- The SET of one operand, in front of those that follow. -/
theorem filterMap_operand_cons (reg : RegName) (v : Option Nat) (rest : List (Nat × Option Nat)) :
    ((regNumber reg, v) :: rest).filterMap (fun p => p.2.map (HostOp.writeReg p.1)) =
      setIfGiven reg v ++ rest.filterMap (fun p => p.2.map (HostOp.writeReg p.1)) := by
  cases v <;> rfl

/-- The operands that are given are set in the order SRC, LEN, DST, CAP, OFF, VAL (30_encoding.md R91). -/
theorem setNamed_eq (src len dst cap off val : Option Nat) :
    setNamed ⟨src, len, dst, cap, off, val⟩ =
      [(2, src), (3, len), (4, dst), (5, cap), (6, off), (7, val)].filterMap
        (fun p => p.2.map (HostOp.writeReg p.1)) := by
  rw [show [(2, src), (3, len), (4, dst), (5, cap), (6, off), (7, val)] = [(regNumber .src, src), (regNumber .len, len),
    (regNumber .dst, dst), (regNumber .cap, cap), (regNumber .off, off), (regNumber .val, val)] from rfl]
  simp only [setNamed, filterMap_operand_cons, List.filterMap_nil, List.append_nil, List.append_assoc]

/-- Settles O16: the clauses on one operation are the expansion itself; STBS and the named operands by their lemmas. -/
theorem assemblyExpansions : Obligations.AssemblyExpansions := by
  refine ⟨?_, ?_, fun _ _ => rfl, fun _ => rfl, fun _ => rfl, fun _ => rfl, storeBytesOps_eq, fun _ _ => rfl, ?_,
    fun _ _ => rfl, rfl, by decide⟩
  · simp [expandAsm, regNumber]
  · simp [expandAsm, regNumber]
  · intro i src len dst cap off val
    rw [expandAsm, setNamed_eq]

end Sys2Proof.Machine
end

section
/-! What a command depends on (30_encoding.md R83, 20_memory.md R66, 10_state.md R34): a relation between the answers from two
states, one rule for each way a command goes on or ends, and one lemma per command template put together from the rules. -/

namespace Sys2Proof.Machine

/-- The answers from the states s and u show the same effect: the same fault, or next states with the same code, the same
RES or both their old one, and at each address the same byte or both their old one. -/
inductive SameEffect (s u : State) : Result → Result → Prop
  | fault (f : Fault) : SameEffect s u (.fault f) (.fault f)
  | next {s' u' : State} (code : u'.statusCode = s'.statusCode)
      (res : u'.res = s'.res ∨ (s'.res = s.res ∧ u'.res = u.res))
      (mem : ∀ a, u'.mem.read a = s'.mem.read a ∨ (s'.mem.read a = s.mem.read a ∧ u'.mem.read a = u.mem.read a)) :
      SameEffect s u (.next s') (.next u')

variable {s u : State}

/-! ## The ways a command goes on and ends -/

/-- The same block write gives at each address the byte written, or leaves both states' own. -/
theorem read_writeBytes_same_or_kept (m m' : Memory) (a : Nat) (bs : List Byte) (x : Nat) :
    (m'.writeBytes a bs).read x = (m.writeBytes a bs).read x ∨
      ((m.writeBytes a bs).read x = m.read x ∧ (m'.writeBytes a bs).read x = m'.read x) := by
  rw [read_writeBytes, read_writeBytes]
  split
  · exact .inl rfl
  · exact .inr ⟨rfl, rfl⟩

/-- A block read depends only on the bytes it covers. -/
theorem readBytes_congr {m m' : Memory} {a n : Nat} (h : ∀ x, a ≤ x → x < a + n → m.read x = m'.read x) :
    m.readBytes a n = m'.readBytes a n := by
  induction n generalizing a with
  | zero => rfl
  | succ n ih =>
    rw [Memory.readBytes, Memory.readBytes, h a (by omega) (by omega),
      ih fun x hlo hhi => h x (by omega) (by omega)]

namespace SameEffect

theorem raise (e : Exn) : SameEffect s u (raise e s) (raise e u) :=
  .next (by simp only [statusCode_setCode]) (.inr ⟨rfl, rfl⟩) fun _ => .inr ⟨rfl, rfl⟩

theorem complete_setRes (n : Nat) : SameEffect s u (complete (s.setRes n)) (complete (u.setRes n)) :=
  .next (by simp only [statusCode_setCode]) (.inl rfl) fun _ => .inr ⟨rfl, rfl⟩

theorem complete_memWrite (a : Nat) (bs : List Byte) :
    SameEffect s u (complete (s.memWrite a bs)) (complete (u.memWrite a bs)) :=
  .next (by simp only [statusCode_setCode]) (.inr ⟨rfl, rfl⟩) (read_writeBytes_same_or_kept s.mem u.mem a bs)

theorem complete_memWrite_setRes (a : Nat) (bs : List Byte) (n : Nat) :
    SameEffect s u (complete ((s.memWrite a bs).setRes n)) (complete ((u.memWrite a bs).setRes n)) :=
  .next (by simp only [statusCode_setCode]) (.inl rfl) (read_writeBytes_same_or_kept s.mem u.mem a bs)

/-- A check with the same outcome in both states raises in both, or lets both go on. -/
theorem check {p q : Prop} [Decidable p] [Decidable q] (hpq : p ↔ q) {e : Exn} {x y : Result} (h : SameEffect s u x y) :
    SameEffect s u (if p then Machine.raise e s else x) (if q then Machine.raise e u else y) := by
  by_cases hp : p
  · rw [if_pos hp, if_pos (hpq.mp hp)]
    exact .raise e
  · rw [if_neg hp, if_neg (mt hpq.mpr hp)]
    exact h

/-- A source that reads the same in both states faults at the same byte, or goes on with the same bytes. -/
theorem withSource {a n : Nat} {go go' : List Byte → Result}
    (hread : ∀ x, a ≤ x → x < a + n → s.mem.read x = u.mem.read x) (h : ∀ bs, SameEffect s u (go bs) (go' bs)) :
    SameEffect s u (withSource s a n go) (withSource u a n go') := by
  rw [Machine.withSource, Machine.withSource, ← readBytes_congr hread]
  cases s.mem.readBytes a n with
  | error x => exact .fault _
  | ok bs => exact h bs

theorem of_fault {f : Fault} {y : Result} (h : SameEffect s u (.fault f) y) : y = .fault f := by
  cases h
  rfl

theorem of_next {s' : State} {y : Result} (h : SameEffect s u (.next s') y) :
    ∃ u', y = .next u' ∧ u'.statusCode = s'.statusCode ∧ (u'.res = s'.res ∨ (s'.res = s.res ∧ u'.res = u.res)) ∧
      ∀ a, u'.mem.read a = s'.mem.read a ∨ (s'.mem.read a = s.mem.read a ∧ u'.mem.read a = u.mem.read a) := by
  cases h with
  | next code res mem => exact ⟨_, rfl, code, res, mem⟩

end SameEffect

/-! ## The templates -/

section
variable (hsize : s.memSize = u.memSize)
include hsize

theorem execRead56_sameEffect (hsrc : s.srcN = u.srcN) (hlen : s.lenN = u.lenN) (hoff : s.offN = u.offN)
    (hread : ∀ x, s.srcN + s.offN ≤ x → x < s.srcN + s.offN + 7 → s.mem.read x = u.mem.read x) :
    SameEffect s u (execRead56 s) (execRead56 u) := by
  simp only [hsrc, hoff] at hread
  simp only [execRead56, sourceLegal_iff, hsize, hsrc, hlen, hoff]
  exact .check .rfl <| .check .rfl <| .withSource hread fun _ => .complete_setRes _

theorem execWrite56_sameEffect (hdst : s.dstN = u.dstN) (hcap : s.capN = u.capN) (hoff : s.offN = u.offN)
    (hval : s.valN = u.valN) : SameEffect s u (execWrite56 s) (execWrite56 u) := by
  have hvalBits : s.val = u.val := BitVec.eq_of_toNat_eq hval
  simp only [execWrite56, destLegal_iff, hsize, hdst, hcap, hoff, hval, hvalBits]
  exact .check .rfl <| .check .rfl <| .check .rfl <| .complete_memWrite _ _

theorem radixEncCommand_sameEffect (c : Codec) (hval : s.valN = u.valN) (hlen : s.lenN = u.lenN) (hdst : s.dstN = u.dstN)
    (hcap : s.capN = u.capN) : SameEffect s u (radixEncCommand c s) (radixEncCommand c u) := by
  simp only [radixEncCommand, destLegal_iff, hsize, hval, hlen, hdst, hcap]
  exact .check .rfl <| .check .rfl <| .check .rfl <| .check .rfl <| .complete_memWrite_setRes _ _ _

variable (hsrc : s.srcN = u.srcN) (hlen : s.lenN = u.lenN)
  (hread : ∀ x, s.srcN ≤ x → x < s.srcN + s.lenN → s.mem.read x = u.mem.read x)
include hsrc hlen hread

theorem encodeCommand_sameEffect (c : Codec) (hdst : s.dstN = u.dstN) (hcap : s.capN = u.capN) :
    SameEffect s u (encodeCommand c s) (encodeCommand c u) := by
  simp only [hsrc, hlen] at hread
  simp only [encodeCommand, sourceLegal_iff, destLegal_iff, hsize, hsrc, hlen, hdst, hcap]
  exact .check .rfl <| .check .rfl <| .check .rfl <| .withSource hread fun _ => .complete_memWrite_setRes _ _ _

theorem decodeCommand_sameEffect (c : Codec) (hdst : s.dstN = u.dstN) (hcap : s.capN = u.capN) :
    SameEffect s u (decodeCommand c s) (decodeCommand c u) := by
  simp only [hsrc, hlen] at hread
  simp only [decodeCommand, sourceLegal_iff, destLegal_iff, hsize, hsrc, hlen, hdst, hcap]
  refine .check .rfl <| .check .rfl <| .withSource hread fun syms => ?_
  cases decodeSeq c syms with
  | none => exact .raise _
  | some bs =>
    cases byteLen c u.lenN with
    | none => exact .raise _
    | some n => exact .check .rfl <| .complete_memWrite_setRes _ _ _

theorem radixDecCommand_sameEffect (c : Codec) : SameEffect s u (radixDecCommand c s) (radixDecCommand c u) := by
  simp only [hsrc, hlen] at hread
  simp only [radixDecCommand, sourceLegal_iff, hsize, hsrc, hlen]
  refine .check .rfl <| .check .rfl <| .withSource hread fun syms => ?_
  cases parse c syms with
  | none => exact .raise _
  | some v => exact .complete_setRes _

theorem validateCommand_sameEffect (c : Codec) : SameEffect s u (validateCommand c s) (validateCommand c u) := by
  simp only [hsrc, hlen] at hread
  simp only [validateCommand, sourceLegal_iff, hsize, hsrc, hlen]
  exact .check .rfl <| .withSource hread fun _ => .complete_setRes _

end

theorem symLenCommand_sameEffect (c : Codec) (hlen : s.lenN = u.lenN) :
    SameEffect s u (symLenCommand c s) (symLenCommand c u) := by
  simp only [symLenCommand, hlen]
  exact .complete_setRes _

theorem byteLenCommand_sameEffect (c : Codec) (hlen : s.lenN = u.lenN) :
    SameEffect s u (byteLenCommand c s) (byteLenCommand c u) := by
  simp only [byteLenCommand, hlen]
  cases byteLen c u.lenN with
  | none => exact .raise _
  | some n => exact .complete_setRes _

/-! ## All commands -/

/-- States that agree on MEM_SIZE, a command's operands and the bytes it reads give the same effect. -/
theorem exec_sameEffect {i : Instr} (hsize : s.memSize = u.memSize)
    (hreg : ∀ r ∈ operandsOf i, s.regValue r = u.regValue r)
    (hread : ∀ a, (sourceRange i s).1 ≤ a → a < (sourceRange i s).1 + (sourceRange i s).2 →
      s.mem.read a = u.mem.read a) : SameEffect s u (exec i s) (exec i u) := by
  cases i with
  | read56 =>
    exact execRead56_sameEffect hsize (hreg .src (by decide)) (hreg .len (by decide)) (hreg .off (by decide)) hread
  | write56 =>
    exact execWrite56_sameEffect hsize (hreg .dst (by decide)) (hreg .cap (by decide)) (hreg .off (by decide))
      (hreg .val (by decide))
  | radixencB10 | radixencB45 | radixencB94 =>
    exact radixEncCommand_sameEffect hsize _ (hreg .val (by decide)) (hreg .len (by decide)) (hreg .dst (by decide))
      (hreg .cap (by decide))
  | radixdecB10 | radixdecB45 | radixdecB94 =>
    exact radixDecCommand_sameEffect hsize (hreg .src (by decide)) (hreg .len (by decide)) hread _
  | encodeB10 | encodeB45 | encodeB94 =>
    exact encodeCommand_sameEffect hsize (hreg .src (by decide)) (hreg .len (by decide)) hread _ (hreg .dst (by decide))
      (hreg .cap (by decide))
  | decodeB10 | decodeB45 | decodeB94 =>
    exact decodeCommand_sameEffect hsize (hreg .src (by decide)) (hreg .len (by decide)) hread _ (hreg .dst (by decide))
      (hreg .cap (by decide))
  | validateB10 | validateB45 | validateB94 =>
    exact validateCommand_sameEffect hsize (hreg .src (by decide)) (hreg .len (by decide)) hread _
  | symlenB10 | symlenB45 | symlenB94 => exact symLenCommand_sameEffect _ (hreg .len (by decide))
  | bytelenB10 | bytelenB45 | bytelenB94 => exact byteLenCommand_sameEffect _ (hreg .len (by decide))

/-- Settles O23: the answers show the same effect, so one fault is the other and one next state has its like. -/
theorem commandsReadOnlyTheirOperands : Obligations.CommandsReadOnlyTheirOperands := by
  intro i s u hsize hreg hread
  have heffect := exec_sameEffect hsize hreg hread
  exact ⟨fun f hf => (hf ▸ heffect).of_fault, fun s' hs' => (hs' ▸ heffect).of_next⟩

end Sys2Proof.Machine
end

section
/-! The 56-bit integers (41_int56.md R100 to R107): the two helpers, then READ56 and WRITE56, each with one lemma for its
trap and one for its completion. A completed WRITE56 leaves its bytes standing where the READ56 of the same place reads. -/

namespace Sys2Proof.Machine

/-! ## The helpers -/

/-- Settles O30: the two laws of R102, with the bound in bits. -/
theorem bigEndianInverseLaws : Obligations.BigEndianInverseLaws :=
  ⟨beBytes_beValue, fun _ s h => beValue_beBytes (pow_two_eight_mul s ▸ h)⟩

theorem beValue_lt_of_length_seven {bs : List Byte} (h : bs.length = 7) : beValue bs < 2 ^ 56 := by
  have hlt := beValue_lt bs
  rwa [h] at hlt

theorem readUInt56BE_of_fits {buf : List Byte} {off : Nat} (h : off + 7 ≤ buf.length) :
    readUInt56BE buf off = some (beValue ((buf.drop off).take 7)) := if_pos h

theorem readUInt56BE_of_not_fits {buf : List Byte} {off : Nat} (h : ¬off + 7 ≤ buf.length) :
    readUInt56BE buf off = none := if_neg h

theorem writeUInt56BE_of_fits {v : Nat} {buf : List Byte} {off : Nat} (hv : v ≤ 2 ^ 56 - 1)
    (h : off + 7 ≤ buf.length) :
    writeUInt56BE v buf off = some (buf.take off ++ beBytes v 7 ++ buf.drop (off + 7)) := if_pos ⟨hv, h⟩

theorem writeUInt56BE_of_not_fits {v : Nat} {buf : List Byte} {off : Nat}
    (h : ¬(v ≤ 2 ^ 56 - 1 ∧ off + 7 ≤ buf.length)) : writeUInt56BE v buf off = none := if_neg h

section Overwrite

variable {buf new : List Byte} {off n : Nat} (hnew : new.length = n) (h : off + n ≤ buf.length)
include hnew h

/-- Bytes put in place of as many others keep the length of the buffer. -/
theorem overwrite_length : (buf.take off ++ new ++ buf.drop (off + n)).length = buf.length := by
  simp only [List.length_append, List.length_take, List.length_drop]
  omega

theorem overwrite_getElem?_inside {i : Nat} (hi : i < n) :
    (buf.take off ++ new ++ buf.drop (off + n))[off + i]? = new[i]? := by
  have htake : (buf.take off).length = off := List.length_take_of_le (by omega)
  rw [List.append_assoc, List.getElem?_append_right (by omega), htake, Nat.add_sub_cancel_left,
    List.getElem?_append_left (by omega)]

theorem overwrite_getElem?_outside {i : Nat} (hi : i < off ∨ off + n ≤ i) :
    (buf.take off ++ new ++ buf.drop (off + n))[i]? = buf[i]? := by
  have htake : (buf.take off).length = off := List.length_take_of_le (by omega)
  rcases hi with hi | hi
  · rw [List.append_assoc, List.getElem?_append_left (by omega), List.getElem?_take_of_lt hi]
  · have hlen : (buf.take off ++ new).length = off + n := by rw [List.length_append, htake, hnew]
    rw [List.getElem?_append_right (by omega), hlen, List.getElem?_drop, Nat.add_sub_cancel' hi]

end Overwrite

/-- Settles O56: the checks of each helper, and the buffer after a write as seven bytes put in place of seven others. -/
theorem uInt56HelpersSucceedAndFail : Obligations.UInt56HelpersSucceedAndFail := by
  refine ⟨fun buf off => ⟨fun h => readUInt56BE_of_not_fits (by omega), fun h => ⟨readUInt56BE_of_fits h, ?_⟩⟩,
    fun v buf off => ⟨fun h => writeUInt56BE_of_not_fits (by omega), fun hv h => ?_⟩⟩
  · have hlen : ((buf.drop off).take 7).length = 7 := List.length_take_of_le (by rw [List.length_drop]; omega)
    exact Nat.le_pred_of_lt (beValue_lt_of_length_seven hlen)
  · have hlen := beBytes_length v 7
    exact ⟨_, writeUInt56BE_of_fits hv h, overwrite_length hlen h, fun i hi => overwrite_getElem?_inside hlen h hi,
      fun i hi => overwrite_getElem?_outside hlen h hi⟩

/-- A full base-10 group is the text of its big-endian value (43_groups.md R156). -/
theorem encodeGroup_base10_full {ch : List Byte} (h : ch.length = 7) :
    encodeGroup .base10 ch = render .base10 (beValue ch) 17 := by
  rw [encodeGroup, h]
  rfl

/-- A full base-10 run that decodes holds a 56-bit value and gives its seven bytes (43_groups.md R159). -/
theorem of_decodeGroup_base10_full {ru bs : List Byte} (hlen : ru.length = 17) (h : decodeGroup .base10 ru = some bs) :
    ∃ v, parse .base10 ru = some v ∧ v ≤ 2 ^ 56 - 1 ∧ bs = beBytes v 7 := by
  obtain ⟨v, hparse, hcount, hv, hbs⟩ := of_decodeGroup h
  have hseven : bs.length = 7 := by
    rw [hlen, show Codec.base10.byteCount 17 = some 7 from byteCount_symbolCount .base10 (Nat.le_refl 7),
      Option.some.injEq] at hcount
    exact hcount.symm
  rw [hseven] at hv hbs
  exact ⟨v, hparse, Nat.le_pred_of_lt hv, hbs⟩

/-- Settles O31: a full group has seven bytes and a 56-bit value, so neither helper fails on it. -/
theorem base10GroupUsesInt56Helpers : Obligations.Base10GroupUsesInt56Helpers := by
  constructor
  · intro ch hlen
    have hread : readUInt56BE ch 0 = some (beValue ch) := by
      rw [readUInt56BE_of_fits (by omega), List.drop_zero, List.take_of_length_le (by omega)]
    refine ⟨hread, fun v hv => ?_⟩
    rw [hread, Option.some.injEq] at hv
    rw [← hv, encodeGroup_base10_full hlen]
  · intro ru bs out off hlen hdecode hroom
    obtain ⟨v, hparse, hv, rfl⟩ := of_decodeGroup_base10_full hlen hdecode
    exact ⟨v, hparse, writeUInt56BE_of_fits hv hroom⟩

/-! ## READ56 -/

theorem execRead56_traps {s : State} (h : s.srcN + s.lenN > s.memSize ∨ s.offN + 7 > s.lenN) :
    execRead56 s = raise .outOfRange s := by
  unfold execRead56
  split
  · rfl
  · next hlegal =>
    rw [sourceLegal_iff] at hlegal
    exact if_pos (by omega)

theorem execRead56_completes {s : State} {bs : List Byte} (hlegal : s.sourceLegal) (hoff : s.offN + 7 ≤ s.lenN)
    (hlen : bs.length = 7) (hbs : s.holdsAt (s.srcN + s.offN) bs) :
    execRead56 s = complete (s.setRes (beValue bs)) := by
  rw [execRead56, if_neg (not_not.mpr hlegal), if_neg (by omega), ← hlen, withSource_of_holdsAt _ hbs]

/-- A byte put behind a word is its least significant digit in radix 256. -/
theorem toNat_append_byte {n : Nat} (x : BitVec n) (b : Byte) : (x ++ b).toNat = x.toNat * 256 + b.toNat := by
  rw [BitVec.toNat_append, ← Nat.shiftLeft_add_eq_or_of_lt b.isLt, Nat.shiftLeft_eq]

/-- Seven bytes side by side, zero-extended, are their big-endian value (41_int56.md R100). -/
theorem ofNat_beValue_seven (b0 b1 b2 b3 b4 b5 b6 : Byte) :
    BitVec.ofNat 64 (beValue [b0, b1, b2, b3, b4, b5, b6]) =
      (0#8 ++ b0 ++ b1 ++ b2 ++ b3 ++ b4 ++ b5 ++ b6 : BitVec 64) := by
  have hlt : beValue [b0, b1, b2, b3, b4, b5, b6] < 2 ^ 56 := beValue_lt_of_length_seven rfl
  apply BitVec.eq_of_toNat_eq
  rw [BitVec.toNat_ofNat, Nat.mod_eq_of_lt (by omega)]
  simp only [toNat_append_byte, beValue_cons, beValue_nil, List.length_cons, List.length_nil, BitVec.toNat_zero]
  omega

/-- Settles O28: the word is a row of the table, and the two clauses are the command's trap and its completion. -/
theorem read56Result : Obligations.Read56Result := by
  refine ⟨decode_encode .read56, fun s => ⟨fun h => ?_, fun b0 b1 b2 b3 b4 b5 b6 hlegal hoff hbs => ?_⟩⟩
  · exact ⟨_, execRead56_traps h, statusCode_setCode s _, setCode_frame s _⟩
  · refine ⟨_, execRead56_completes hlegal hoff rfl hbs, statusCode_setCode _ _, setRes_setCode_frame s _ _, ?_⟩
    rw [setCode_res, setRes_res, ofNat_beValue_seven]

/-! ## WRITE56 -/

/-- VAL[63:56] is 0 exactly below 2^56. -/
theorem val_high_eq_zero_iff (s : State) : s.val.extractLsb' 56 8 = 0 ↔ s.valN < 2 ^ 56 := by
  have hlt : s.val.toNat < 2 ^ 64 := s.val.isLt
  rw [← BitVec.toNat_inj, BitVec.extractLsb'_toNat, Nat.shiftRight_eq_div_pow, State.valN]
  simp only [BitVec.ofNat_eq_ofNat, BitVec.toNat_ofNat]
  omega

theorem execWrite56_traps {s : State} (h : s.dstN + s.capN > s.memSize ∨ 2 ^ 56 ≤ s.valN ∨ s.offN + 7 > s.capN) :
    execWrite56 s = raise .outOfRange s := by
  unfold execWrite56
  split
  · rfl
  · next hlegal =>
    split
    · rfl
    · next hval =>
      rw [destLegal_iff] at hlegal
      rw [ne_eq, val_high_eq_zero_iff] at hval
      exact if_pos (by omega)

theorem execWrite56_completes {s : State} (hlegal : s.destLegal) (hval : s.valN < 2 ^ 56) (hoff : s.offN + 7 ≤ s.capN) :
    execWrite56 s = complete (s.memWrite (s.dstN + s.offN) (beBytes s.valN 7)) := by
  rw [execWrite56, if_neg (not_not.mpr hlegal), if_neg (not_not.mpr ((val_high_eq_zero_iff s).mpr hval)),
    if_neg (by omega)]

/-- Byte j of the seven bytes of a word is its bits 55-8j down to 48-8j (41_int56.md R101). -/
theorem getElem?_beBytes_seven (v : DWord) {j : Nat} (h : j < 7) :
    (beBytes v.toNat 7)[j]? = some (v.extractLsb' (48 - 8 * j) 8) := by
  have hshift : 48 - 8 * j = 8 * (7 - 1 - j) := by omega
  rw [getElem_beBytes h, hshift, BitVec.extractLsb', Nat.shiftRight_eq_div_pow, pow_two_eight_mul]

/-- Settles O29: the word is a row of the table; a trap changes the code alone, and a completion is one block write. -/
theorem write56Result : Obligations.Write56Result := by
  refine ⟨decode_encode .write56, fun s => ⟨fun h => ?_, fun hlegal hval hoff => ?_⟩⟩
  · exact ⟨_, execWrite56_traps h, statusCode_setCode s _, setCode_frame s _⟩
  · have hexec := execWrite56_completes hlegal hval hoff
    refine ⟨_, hexec, statusCode_setCode _ _, memWrite_setCode_frame s _ _ _, fun j hj => ?_,
      fun a ha => execWrite56_read_outside hexec ha⟩
    rw [← getElem?_beBytes_seven s.val hj, setCode_mem, memWrite_mem]
    have hlen : j < (beBytes s.valN 7).length := by rwa [beBytes_length]
    exact (read_writeBytes_inside s.mem _ j _ hlen).trans (List.getElem?_eq_getElem hlen).symm

/-- Settles O32: a WRITE56 that completes stored the seven bytes of VAL, and their value is VAL again. -/
theorem write56ThenRead56 : Obligations.Write56ThenRead56 := by
  intro s t h hcode
  rcases execWrite56_cases h with rfl | ⟨hlegal, hval, hoff, rfl⟩
  · rw [statusCode_setCode] at hcode
    cases hcode
  · have hbytes : ((s.memWrite (s.dstN + s.offN) (beBytes s.valN 7)).setCode codeOk).holdsAt (s.dstN + s.offN)
        (beBytes s.valN 7) := holdsAt_of_mem_eq rfl
    have hlt : s.valN < 256 ^ 7 := (val_high_eq_zero_iff s).mp hval
    refine ⟨_, execRead56_completes hlegal hoff (beBytes_length _ 7) hbytes, statusCode_setCode _ _, ?_⟩
    rw [setCode_res, setRes_res, beValue_beBytes hlt, State.valN, BitVec.ofNat_toNat, BitVec.setWidth_eq]

end Sys2Proof.Machine
end

section
/-! The radix converter (42_radix.md R120 to R137): rendering and parsing, then RADIXENC.c and RADIXDEC.c, each template with
one lemma per way it ends. The digit order of a codec enters only in the place of a rendered symbol and in the value of parsed
digits, so the three codecs share every other argument. -/

namespace Sys2Proof.Machine

/-! ## Rendering and parsing -/

/-- Parsing the rendered symbols of a value that fits gives the value (42_radix.md R124). -/
theorem parse_render {c : Codec} {v k : Nat} (h : v < c.radix ^ k) : parse c (render c v k) = some v := by
  have hlt (d : Nat) (hd : d ∈ inCodecOrder c (digits c.radix v k)) : d < c.radix :=
    digits_lt (radix_pos c) ((mem_inCodecOrder c _ d).mp hd)
  rw [parse, render, mapM_digitOf_map_symbolOf hlt, Option.map_some, inCodecOrder_inCodecOrder,
    digitsValue_digits (radix_pos c) h]

/-- Settles O38: digits below the radix and their value determine each other, and so do digit values and symbols. -/
theorem renderParseInverse : Obligations.RenderParseInverse := by
  refine fun c => ⟨fun v k h => parse_render h, fun syms hall => ?_⟩
  rw [← parse_isSome] at hall
  obtain ⟨v, hv⟩ := Option.isSome_iff_exists.mp hall
  exact ⟨v, hv, (of_parse hv).2⟩

theorem getElem?_digits {N v k j : Nat} (h : j < k) : (digits N v k)[j]? = some (v / N ^ j % N) := by
  simp [digits, h]

/-- Least significant first, symbol j is that of digit j (42_radix.md R121, R122). -/
theorem getElem?_render_lsdFirst {c : Codec} (hc : c.order = .lsdFirst) {v k j : Nat} (h : j < k) :
    (render c v k)[j]? = some (c.symbolOf (v / c.radix ^ j % c.radix)) := by
  rw [render, inCodecOrder, hc, List.getElem?_map, getElem?_digits h, Option.map_some]

/-- Most significant first, symbol j is that of digit k-1-j (42_radix.md R121, R122). -/
theorem getElem?_render_msdFirst {c : Codec} (hc : c.order = .msdFirst) {v k j : Nat} (h : j < k) :
    (render c v k)[j]? = some (c.symbolOf (v / c.radix ^ (k - 1 - j) % c.radix)) := by
  have hrev : (digits c.radix v k).reverse[j]? = (digits c.radix v k)[k - 1 - j]? := by
    rw [List.getElem?_reverse (by rwa [digits_length]), digits_length]
  rw [render, inCodecOrder, hc, List.getElem?_map, hrev, getElem?_digits (by omega), Option.map_some]

/-- The symbols of digits parse to the value of the digits in the codec's order (42_radix.md R123). -/
theorem parse_map_symbolOf {c : Codec} {ds : List Nat} (h : ∀ d ∈ ds, d < c.radix) :
    parse c (ds.map c.symbolOf) = some (digitsValue c.radix (inCodecOrder c ds)) := by
  rw [parse, mapM_digitOf_map_symbolOf h, Option.map_some]

theorem parse_eq_none {c : Codec} {syms : List Byte} (h : ∃ u ∈ syms, c.inAlphabet u = false) :
    parse c syms = none := by
  obtain ⟨u, hu, hout⟩ := h
  rw [← Option.not_isSome_iff_eq_none, parse_isSome, List.all_eq_true]
  intro hall
  rw [hall u hu] at hout
  cases hout

/-- Every value of at most GS symbols fits RES (42_radix.md R127). -/
theorem parse_lt_two_pow {c : Codec} {syms : List Byte} {v : Nat} (h : parse c syms = some v)
    (hlen : syms.length ≤ c.groupSymbols) : v < 2 ^ 64 :=
  calc v < c.radix ^ syms.length := (of_parse h).1
    _ ≤ c.radix ^ c.groupSymbols := Nat.pow_le_pow_right (radix_pos c) hlen
    _ ≤ 2 ^ 64 := by cases c <;> decide

theorem digitsValue_eq_foldr (N : Nat) (ds : List Nat) : digitsValue N ds = ds.foldr (fun d n => d + N * n) 0 := by
  induction ds with
  | nil => rfl
  | cons d ds ih => rw [digitsValue, ih, List.foldr_cons]

/-! ## RADIXENC.c -/

theorem radixEncCommand_traps {c : Codec} {s : State}
    (h : s.dstN + s.capN > s.memSize ∨ s.lenN > c.groupSymbols ∨ s.valN ≥ c.radix ^ s.lenN ∨ s.lenN > s.capN) :
    radixEncCommand c s = raise .outOfRange s := by
  unfold radixEncCommand
  split
  · rfl
  · next hlegal =>
    rw [destLegal_iff] at hlegal
    split
    · rfl
    · split
      · rfl
      · exact if_pos (by omega)

theorem radixEncCommand_completes {c : Codec} {s : State} (hlegal : s.destLegal) (hlen : s.lenN ≤ c.groupSymbols)
    (hval : s.valN < c.radix ^ s.lenN) (hroom : s.lenN ≤ s.capN) :
    radixEncCommand c s = complete ((s.memWrite s.dstN (render c s.valN s.lenN)).setRes s.lenN) := by
  rw [radixEncCommand, if_neg (not_not.mpr hlegal), if_neg (by omega), if_neg (by omega), if_neg (by omega)]

/-- What a RADIXENC.c that completes leaves, symbol by symbol, whatever formula gives the symbols of the rendering. -/
theorem radixEncCommand_result {c : Codec} {s : State} {symbolAt : Nat → Byte} (hlegal : s.destLegal)
    (hlen : s.lenN ≤ c.groupSymbols) (hval : s.valN < c.radix ^ s.lenN) (hroom : s.lenN ≤ s.capN)
    (hsymbol : ∀ j < s.lenN, (render c s.valN s.lenN)[j]? = some (symbolAt j)) :
    ∃ t, radixEncCommand c s = .next t ∧ t.statusCode = 0 ∧
      t = { s with status := t.status, res := t.res, mem := t.mem } ∧ t.res.toNat = s.lenN ∧
      (∀ j < s.lenN, t.mem.read (s.dstN + j) = some (symbolAt j)) ∧
      ∀ a, a < s.dstN ∨ s.dstN + s.lenN ≤ a → t.mem.read a = s.mem.read a := by
  have hexec := radixEncCommand_completes hlegal hlen hval hroom
  refine ⟨_, hexec, statusCode_setCode _ _, memWrite_setRes_setCode_frame s _ _ _ _, ?_, fun j hj => ?_,
    fun a ha => radixEncCommand_read_outside hexec ha⟩
  · rw [setCode_res, setRes_res, BitVec.toNat_ofNat]
    exact Nat.mod_eq_of_lt (s.len.isLt.trans (by decide))
  · have hj' : j < (render c s.valN s.lenN).length := by rwa [render_length]
    rw [setCode_mem, setRes_mem, memWrite_mem, read_writeBytes_inside s.mem _ j _ hj', ← List.getElem?_eq_getElem hj']
    exact hsymbol j hj

/-- Settles O35: each row is a codec with its own template, radix and group size, least significant digit first. -/
theorem radixencLsdFirstResult : Obligations.RadixencLsdFirstResult := by
  intro w i c N GS hrow
  obtain ⟨hdecode, hexec, rfl, rfl, horder⟩ : decode w = .ok i ∧ exec i = radixEncCommand c ∧ N = c.radix ∧
      GS = c.groupSymbols ∧ c.order = .lsdFirst := by
    simp only [List.mem_cons, List.not_mem_nil, or_false, Prod.mk.injEq] at hrow
    rcases hrow with ⟨rfl, rfl, rfl, rfl, rfl⟩ | ⟨rfl, rfl, rfl, rfl, rfl⟩
    · exact ⟨decode_encode .radixencB45, rfl, rfl, rfl, rfl⟩
    · exact ⟨decode_encode .radixencB94, rfl, rfl, rfl, rfl⟩
  refine ⟨hdecode, fun s => ?_⟩
  rw [hexec]
  exact ⟨fun h => ⟨_, radixEncCommand_traps h, statusCode_setCode s _, setCode_frame s _⟩,
    fun hlegal hlen hval hroom => radixEncCommand_result hlegal hlen hval hroom
      fun j hj => getElem?_render_lsdFirst horder hj⟩

/-- Settles O36: most significant digit first, and the base-10 symbol of a digit is 0x30 plus the digit. -/
theorem radixencB10Result : Obligations.RadixencB10Result := by
  refine ⟨decode_encode .radixencB10, fun s => ⟨fun h => ?_, fun hlegal hlen hval hroom => ?_⟩⟩
  · exact ⟨_, radixEncCommand_traps (c := .base10) h, statusCode_setCode s _, setCode_frame s _⟩
  · refine radixEncCommand_result (c := .base10) hlegal hlen hval hroom fun j hj => ?_
    rw [getElem?_render_msdFirst rfl hj]
    exact congrArg some (symbolOf_of_run (base := 0x30) (n := 10) rfl (Nat.mod_lt _ (by decide)))

/-! ## RADIXDEC.c -/

theorem radixDecCommand_traps {c : Codec} {s : State}
    (h : s.srcN + s.lenN > s.memSize ∨ s.lenN > c.groupSymbols) : radixDecCommand c s = raise .outOfRange s := by
  unfold radixDecCommand
  split
  · rfl
  · next hlegal =>
    rw [sourceLegal_iff] at hlegal
    exact if_pos (by omega)

section Source

variable {c : Codec} {s : State} {syms : List Byte} (hlen : syms.length = s.lenN) (hlegal : s.sourceLegal)
  (hmax : s.lenN ≤ c.groupSymbols) (hsyms : s.holdsAt s.srcN syms)
include hlen hlegal hmax hsyms

theorem radixDecCommand_of_parse_none (h : parse c syms = none) :
    radixDecCommand c s = raise .invalidEncoding s := by
  rw [radixDecCommand, if_neg (not_not.mpr hlegal), if_neg (by omega), ← hlen, withSource_of_holdsAt _ hsyms, h]

theorem radixDecCommand_of_parse_some {v : Nat} (h : parse c syms = some v) :
    radixDecCommand c s = complete (s.setRes v) := by
  rw [radixDecCommand, if_neg (not_not.mpr hlegal), if_neg (by omega), ← hlen, withSource_of_holdsAt _ hsyms, h]

end Source

/-- Settles O37: each row is a codec with its own template, radix and group size; the value of the digits is Horner's sum
from the front for base 10 and from the back for the others. -/
theorem radixdecResult : Obligations.RadixdecResult := by
  intro w i c N GS hrow
  obtain ⟨hdecode, hexec, rfl, rfl, hvalue⟩ : decode w = .ok i ∧ exec i = radixDecCommand c ∧ N = c.radix ∧
      GS = c.groupSymbols ∧ ∀ ds, digitsValue c.radix (inCodecOrder c ds) =
        if i = .radixdecB10 then ds.foldl (fun n d => n * 10 + d) 0 else ds.foldr (fun d n => d + N * n) 0 := by
    simp only [List.mem_cons, List.not_mem_nil, or_false, Prod.mk.injEq] at hrow
    rcases hrow with ⟨rfl, rfl, rfl, rfl, rfl⟩ | ⟨rfl, rfl, rfl, rfl, rfl⟩ | ⟨rfl, rfl, rfl, rfl, rfl⟩
    · refine ⟨decode_encode .radixdecB10, rfl, rfl, rfl, fun ds => ?_⟩
      have hhorner := foldl_reverse_eq_digitsValue 10 ds.reverse
      rw [List.reverse_reverse] at hhorner
      exact hhorner.symm
    · exact ⟨decode_encode .radixdecB45, rfl, rfl, rfl, digitsValue_eq_foldr 45⟩
    · exact ⟨decode_encode .radixdecB94, rfl, rfl, rfl, digitsValue_eq_foldr 94⟩
  refine ⟨hdecode, fun s => ?_⟩
  rw [hexec]
  refine ⟨fun h => ?_, fun syms hlen hlegal hmax hsyms hout => ?_, fun ds hlen hlegal hmax hds hsyms => ?_⟩
  · exact ⟨_, radixDecCommand_traps h, statusCode_setCode s _, setCode_frame s _⟩
  · exact ⟨_, radixDecCommand_of_parse_none hlen hlegal hmax hsyms (parse_eq_none hout), statusCode_setCode s _,
      setCode_frame s _⟩
  · have hparse := parse_map_symbolOf hds
    have hlen' : (ds.map c.symbolOf).length = s.lenN := by rw [List.length_map]; exact hlen
    refine ⟨_, radixDecCommand_of_parse_some hlen' hlegal hmax hsyms hparse, statusCode_setCode _ _,
      setRes_setCode_frame s _ _, ?_⟩
    rw [setCode_res, setRes_res, BitVec.toNat_ofNat, ← hvalue]
    exact Nat.mod_eq_of_lt (parse_lt_two_pow hparse (hlen'.trans_le hmax))

/-! ## The round trip -/

/-- A RADIXENC.c that completes stored the rendering of VAL, which parses to VAL. -/
theorem radixDecCommand_of_radixEncCommand {c : Codec} {s t : State} (h : radixEncCommand c s = .next t)
    (hcode : t.statusCode = 0) :
    ∃ u, radixDecCommand c { t with src := t.dst } = .next u ∧ u.statusCode = 0 ∧ u.res = s.val := by
  rcases radixEncCommand_cases h with rfl | ⟨hlegal, hlen, hval, hroom, rfl⟩
  · rw [statusCode_setCode] at hcode
    cases hcode
  · have hparse : parse c (render c s.valN s.lenN) = some s.valN := parse_render hval
    refine ⟨_, radixDecCommand_of_parse_some ?_ ?_ ?_ ?_ hparse, statusCode_setCode _ _, ?_⟩
    · exact render_length c s.valN s.lenN
    · exact (Nat.add_le_add_left hroom _).trans hlegal
    · exact hlen
    · exact holdsAt_of_mem_eq (s := s) rfl
    · rw [setCode_res, setRes_res, State.valN, BitVec.ofNat_toNat, BitVec.setWidth_eq]

/-- Settles O39: each pair is the two templates of one codec. -/
theorem radixencThenRadixdec : Obligations.RadixencThenRadixdec := by
  intro i j hpair s t h hcode
  simp only [List.mem_cons, List.not_mem_nil, or_false, Prod.mk.injEq] at hpair
  rcases hpair with ⟨rfl, rfl⟩ | ⟨rfl, rfl⟩ | ⟨rfl, rfl⟩
  · exact radixDecCommand_of_radixEncCommand (c := .base10) h hcode
  · exact radixDecCommand_of_radixEncCommand (c := .base45) h hcode
  · exact radixDecCommand_of_radixEncCommand (c := .base94) h hcode

end Sys2Proof.Machine
end

section
/-! The groups (43_groups.md R150 to R162): the length functions, one codec's text of a group, and the encoder and decoder of
a sequence as inverses of each other, each by the split that goes on with a full group in front; then what DECODE.c and
VALIDATE.c answer to a text, by whether some byte sequence encodes to it. -/

namespace Sys2Proof.Machine

/-! ## The length functions -/

theorem validLen_iff_mem (c : Codec) (L : Nat) : validLen c L ↔ L % c.groupSymbols ∈ 0 :: c.partialTable :=
  List.mem_cons.symm

/-- Settles O40: the remainders are 0 and the partial table of the codec. -/
theorem lengthGrammar : Obligations.LengthGrammar :=
  fun L => ⟨validLen_iff_mem .base10 L, validLen_iff_mem .base45 L, validLen_iff_mem .base94 L⟩

/-- One byte more in a group takes more symbols. -/
theorem symbolCount_lt_succ {c : Codec} {r : Nat} (h : r < c.groupBytes) : c.symbolCount r < c.symbolCount (r + 1) := by
  cases c <;> simp only [Codec.groupBytes] at h <;> interval_cases r <;> decide

/-- Full groups and r bytes more; r may be a full group again, since P[GB] = GS. -/
theorem symLen_mul_add {c : Codec} {q r : Nat} (h : r ≤ c.groupBytes) :
    symLen c (q * c.groupBytes + r) = q * c.groupSymbols + c.symbolCount r := by
  induction q with
  | zero =>
    rcases h.lt_or_eq with hlt | rfl
    · simp [symLen_of_lt hlt]
    · simpa [symbolCount_groupBytes] using symLen_add c 0
  | succ q ih => rw [Nat.succ_mul, Nat.succ_mul, Nat.add_comm _ c.groupBytes, Nat.add_assoc, symLen_add, ih, ← Nat.add_assoc,
    Nat.add_comm c.groupSymbols]

theorem byteLen_mul_add {c : Codec} {q k : Nat} (h : k < c.groupSymbols) :
    byteLen c (q * c.groupSymbols + k) = (c.byteCount k).map (fun r => q * c.groupBytes + r) := by
  have hdiv : (q * c.groupSymbols + k) / c.groupSymbols = q := by
    rw [Nat.add_comm, Nat.add_mul_div_right _ _ (groupSymbols_pos c), Nat.div_eq_of_lt h, Nat.zero_add]
  rw [byteLen, Nat.mul_add_mod_of_lt h, hdiv]

theorem byteLen_symLen (c : Codec) (n : Nat) : byteLen c (symLen c n) = some n := by
  have hr := Nat.mod_lt n (groupBytes_pos c)
  rw [symLen, byteLen_mul_add (symbolCount_lt hr), byteCount_symbolCount c hr.le, Option.map_some, Nat.div_add_mod']

theorem symLen_of_byteLen {c : Codec} {L n : Nat} (h : byteLen c L = some n) : symLen c n = L := by
  obtain ⟨r, hr, rfl⟩ := Option.map_eq_some_iff.mp h
  obtain ⟨hcount, hle⟩ := symbolCount_of_byteCount hr
  rw [symLen_mul_add hle, hcount, Nat.div_add_mod']

theorem symLen_strictMono (c : Codec) : StrictMono (symLen c) := by
  refine strictMono_nat_of_lt_succ fun n => ?_
  have hr := Nat.mod_lt n (groupBytes_pos c)
  have hn : n + 1 = n / c.groupBytes * c.groupBytes + (n % c.groupBytes + 1) := by
    rw [← Nat.add_assoc, Nat.div_add_mod']
  rw [hn, symLen_mul_add hr, symLen]
  exact Nat.add_lt_add_left (symbolCount_lt_succ hr) _

/-- Settles O41: byteLen is defined on the valid lengths, and so on every length that symLen gives. -/
theorem lengthLaws : Obligations.LengthLaws := by
  refine fun c => ⟨byteLen_isSome_iff c, fun n => ⟨?_, byteLen_symLen c n⟩, fun L n => symLen_of_byteLen,
    fun m n h => symLen_strictMono c h⟩
  rw [← byteLen_isSome_iff, byteLen_symLen, Option.isSome_some]

/-! ## The text of a group -/

theorem render_lsdFirst {c : Codec} (hc : c.order = .lsdFirst) (v k : Nat) :
    render c v k = (List.range k).map (fun j => c.symbolOf (v / c.radix ^ j % c.radix)) := by
  simp only [render, inCodecOrder, hc, digits, List.map_map, Function.comp_def]

theorem render_msdFirst {c : Codec} (hc : c.order = .msdFirst) (v k : Nat) :
    render c v k = (List.range k).map (fun j => c.symbolOf (v / c.radix ^ (k - 1 - j) % c.radix)) := by
  have hreverse : (List.range k).reverse = (List.range k).map (fun j => k - 1 - j) := by
    conv_lhs => rw [List.range_eq_range', List.reverse_range', Nat.zero_add]
  simp only [render, inCodecOrder, hc, digits, ← List.map_reverse, hreverse, List.map_map, Function.comp_def]

theorem symbolOf_base10 {d : Nat} (h : d < 10) : Codec.base10.symbolOf d = BitVec.ofNat 8 (0x30 + d) :=
  symbolOf_of_run rfl h

theorem symbolOf_base94 {d : Nat} (h : d < 94) : Codec.base94.symbolOf d = BitVec.ofNat 8 (33 + d) :=
  symbolOf_of_run rfl h

/-- A value in base 10 is its decimal digits, most significant first (10_state.md R41, 42_radix.md R122). -/
theorem render_base10 (v k : Nat) :
    render .base10 v k = (List.range k).map (fun j => BitVec.ofNat 8 (0x30 + v / 10 ^ (k - 1 - j) % 10)) := by
  rw [render_msdFirst rfl]
  exact List.map_congr_left fun j _ => symbolOf_base10 (Nat.mod_lt _ (by decide))

/-- A value in base 94 is its digits above 33, least significant first (10_state.md R43, 42_radix.md R122). -/
theorem render_base94 (v k : Nat) :
    render .base94 v k = (List.range k).map (fun j => BitVec.ofNat 8 (33 + v / 94 ^ j % 94)) := by
  rw [render_lsdFirst rfl]
  exact List.map_congr_left fun j _ => symbolOf_base94 (Nat.mod_lt _ (by decide))

/-- A full group is the text of its value, and the rest of the sequence follows (43_groups.md R155 to R157). -/
theorem encodeSeq_full {c : Codec} {ch : List Byte} (h : ch.length = c.groupBytes) (rest : List Byte) :
    encodeSeq c (ch ++ rest) = render c (beValue ch) c.groupSymbols ++ encodeSeq c rest := by
  rw [encodeSeq_append h, encodeGroup, h, symbolCount_groupBytes]

theorem symbolCount_of_partial {c : Codec} {r : Nat} (h0 : 0 < r) (h : r < c.groupBytes) :
    c.symbolCount r = c.partialTable[r - 1]! := by
  cases c <;> simp only [Codec.groupBytes] at h <;> interval_cases r <;> rfl

/-- The last group, if it is not full, is the text of its value with the symbols that the partial table says. -/
theorem encodeSeq_partial {c : Codec} {ch : List Byte} (h0 : 0 < ch.length) (h : ch.length < c.groupBytes) :
    encodeSeq c ch = render c (beValue ch) c.partialTable[ch.length - 1]! := by
  rw [encodeSeq_short (List.length_pos_iff.mp h0) h, encodeGroup, symbolCount_of_partial h0 h]

/-- Settles O45: the text of each group, with the digits of base 10. -/
theorem base10EncodedText : Obligations.Base10EncodedText := by
  refine ⟨fun ch rest h => ?_, fun ch h0 h => ?_, encodeSeq_nil .base10⟩
  · rw [encodeSeq_full (c := .base10) h, render_base10]
    rfl
  · exact (encodeSeq_partial (c := .base10) h0 h).trans (render_base10 _ _)

/-- Settles O47: the text of each group, with the digits of base 94. -/
theorem base94EncodedText : Obligations.Base94EncodedText := by
  refine ⟨fun ch rest h => ?_, fun ch h0 h => ?_, encodeSeq_nil .base94⟩
  · rw [encodeSeq_full (c := .base94) h, render_base94]
    rfl
  · exact (encodeSeq_partial (c := .base94) h0 h).trans (render_base94 _ _)

/-- The symbol of a digit value in base 45 is the code of its character in the string (10_state.md R42). -/
theorem symbolOf_base45_eq_char (d : Nat) : Codec.base45.symbolOf d =
    ("0123456789ABCDEFGHIJKLMNOPQRSTUVWXYZ $%*+-./:".toList[d]?).elim 0 (fun ch => BitVec.ofNat 8 ch.toNat) := by
  have hcodes : alphabet45 =
      "0123456789ABCDEFGHIJKLMNOPQRSTUVWXYZ $%*+-./:".toList.map (fun ch => BitVec.ofNat 8 ch.toNat) := by decide
  rw [Codec.symbolOf, Codec.alphabet, hcodes, List.getElem?_map]
  cases "0123456789ABCDEFGHIJKLMNOPQRSTUVWXYZ $%*+-./:".toList[d]? <;> rfl

theorem encodeSeq_base45_pair (b0 b1 : Byte) (rest : List Byte) {v : Nat} (hv : v = b0.toNat * 256 + b1.toNat) :
    encodeSeq .base45 (b0 :: b1 :: rest) = Codec.base45.symbolOf (v % 45) :: Codec.base45.symbolOf (v / 45 % 45) ::
      Codec.base45.symbolOf (v / 2025 % 45) :: encodeSeq .base45 rest := by
  have hvalue : beValue [b0, b1] = v := by simp [beValue_cons, hv]
  have h := encodeSeq_full (c := .base45) (ch := [b0, b1]) rfl rest
  rw [render_lsdFirst rfl, hvalue] at h
  simpa [List.range_succ, Codec.groupSymbols, Codec.radix] using h

/-- The value of one byte leaves a second digit below 45. -/
theorem encodeSeq_base45_last (b0 : Byte) : encodeSeq .base45 [b0] =
    [Codec.base45.symbolOf (b0.toNat % 45), Codec.base45.symbolOf (b0.toNat / 45)] := by
  have hsecond : b0.toNat / 45 % 45 = b0.toNat / 45 := Nat.mod_eq_of_lt (by have := b0.isLt; omega)
  have h := encodeSeq_partial (c := .base45) (ch := [b0]) Nat.zero_lt_one Nat.one_lt_two
  rw [render_lsdFirst rfl] at h
  simpa [List.range_succ, Codec.partialTable, Codec.radix, beValue_cons, hsecond] using h

/-- Settles O46: the text of a pair and of a last byte, with the characters of the string as symbols. -/
theorem base45EncodedText : Obligations.Base45EncodedText := by
  unfold Obligations.Base45EncodedText
  intro sym
  have hsym : Codec.base45.symbolOf = sym := funext symbolOf_base45_eq_char
  rw [← hsym]
  exact ⟨fun b0 b1 rest => encodeSeq_base45_pair b0 b1 rest rfl, encodeSeq_base45_last, encodeSeq_nil .base45⟩

/-! ## Encoding and decoding a sequence -/

/-- A decoded run of k symbols has the bytes whose table entry is k. -/
theorem symbolCount_of_decodeGroup {c : Codec} {ru bs : List Byte} (h : decodeGroup c ru = some bs) :
    c.symbolCount bs.length = ru.length ∧ bs.length ≤ c.groupBytes := by
  obtain ⟨v, -, hcount, -⟩ := of_decodeGroup h
  exact symbolCount_of_byteCount hcount

/-- Decoding undoes encoding (43_groups.md R162 (a)). -/
theorem decodeSeq_encodeSeq (c : Codec) (bs : List Byte) : decodeSeq c (encodeSeq c bs) = some bs := by
  induction bs using chunks_induction (groupBytes_pos c) with
  | nil => rw [encodeSeq_nil, decodeSeq_nil]
  | short bs h0 h =>
    have hpos := symbolCount_pos (List.length_pos_iff.mpr h0) h.le
    have hlt := symbolCount_lt h
    rw [← encodeGroup_length] at hpos hlt
    rw [encodeSeq_short h0 h, decodeSeq_short (List.length_pos_iff.mp hpos) hlt, decodeGroup_encodeGroup h.le]
  | full a bs ha ih =>
    have hlen : (encodeGroup c a).length = c.groupSymbols := by rw [encodeGroup_length, ha, symbolCount_groupBytes]
    rw [encodeSeq_append ha, decodeSeq_append hlen, decodeGroup_encodeGroup ha.le, ih]
    rfl

/-- Encoding undoes decoding (43_groups.md R162 (c)). -/
theorem encodeSeq_of_decodeSeq {c : Codec} {t bs : List Byte} (h : decodeSeq c t = some bs) : encodeSeq c bs = t := by
  induction t using chunks_induction (groupSymbols_pos c) generalizing bs with
  | nil =>
    rw [decodeSeq_nil, Option.some.injEq] at h
    rw [← h, encodeSeq_nil]
  | short t h0 hlt =>
    rw [decodeSeq_short h0 hlt] at h
    obtain ⟨hcount, hle⟩ := symbolCount_of_decodeGroup h
    have hne : bs ≠ [] := by
      rintro rfl
      exact h0 (List.eq_nil_of_length_eq_zero hcount.symm)
    have hshort : bs.length < c.groupBytes := by
      refine hle.lt_of_ne fun hfull => hlt.ne ?_
      rw [← hcount, hfull, symbolCount_groupBytes]
    rw [encodeSeq_short hne hshort, encodeGroup_of_decodeGroup h]
  | full a t ha ih =>
    rw [decodeSeq_append ha] at h
    obtain ⟨x, hx, y, hy, rfl⟩ : ∃ x, decodeGroup c a = some x ∧ ∃ y, decodeSeq c t = some y ∧ x ++ y = bs := by
      simpa [Option.bind_eq_some_iff] using h
    obtain ⟨hcount, hle⟩ := symbolCount_of_decodeGroup hx
    have hfull : x.length = c.groupBytes := by
      by_contra hne
      have := symbolCount_lt (hle.lt_of_ne hne)
      omega
    rw [encodeSeq_append hfull, encodeGroup_of_decodeGroup hx, ih hy]

theorem decodeSeq_eq_some_iff (c : Codec) (t bs : List Byte) : decodeSeq c t = some bs ↔ encodeSeq c bs = t := by
  refine ⟨encodeSeq_of_decodeSeq, ?_⟩
  rintro rfl
  exact decodeSeq_encodeSeq c bs

theorem decodeSeq_eq_none_iff (c : Codec) (t : List Byte) : decodeSeq c t = none ↔ ∀ bs, encodeSeq c bs ≠ t := by
  simp only [Option.eq_none_iff_forall_ne_some, ne_eq, decodeSeq_eq_some_iff]

theorem valid_iff_exists_encodeSeq (c : Codec) (t : List Byte) : valid c t = true ↔ ∃ bs, encodeSeq c bs = t := by
  simp only [← decodeSeq_isSome, Option.isSome_iff_exists, decodeSeq_eq_some_iff]

theorem encodeSeq_injective (c : Codec) : Function.Injective (encodeSeq c) := by
  intro bs bs' h
  rw [← decodeSeq_eq_some_iff, decodeSeq_encodeSeq, Option.some.injEq] at h
  exact h.symm

/-- Settles O48: an encoding decodes to its bytes, and what decodes is valid. -/
theorem codecRoundTrip : Obligations.CodecRoundTrip :=
  fun c bs => ⟨(valid_iff_exists_encodeSeq c _).mpr ⟨bs, rfl⟩, decodeSeq_encodeSeq c bs⟩

/-- Settles O49: encoding and decoding are inverse to each other, and decoding succeeds on the valid texts. -/
theorem validTextsAreEncodings : Obligations.ValidTextsAreEncodings :=
  fun c => ⟨valid_iff_exists_encodeSeq c, decodeSeq_eq_some_iff c, fun _ _ h => encodeSeq_injective c h⟩

/-- A run decodes when its length is in the table, its symbols in the alphabet, and its value fits (43_groups.md R159). -/
theorem decodeGroup_isSome_iff (c : Codec) (ru : List Byte) : (decodeGroup c ru).isSome ↔
    ∃ s v, c.byteCount ru.length = some s ∧ parse c ru = some v ∧ v < 2 ^ (8 * s) := by
  unfold decodeGroup
  cases c.byteCount ru.length <;> cases parse c ru <;> simp

/-- Settles O50: the three conjuncts of the definition, the last by what it is for a run to decode. -/
theorem validityConjuncts : Obligations.ValidityConjuncts := by
  intro c t
  simp only [valid, Bool.and_eq_true, List.all_eq_true, decide_eq_true_eq, and_assoc, decodeGroup_isSome_iff]

/-! ## DECODE.c and VALIDATE.c -/

section Source

variable {c : Codec} {s : State} {text : List Byte} (hlen : text.length = s.lenN) (hsrc : s.sourceLegal)
  (hdst : s.destLegal) (htext : s.holdsAt s.srcN text)
include hlen hsrc hdst htext

theorem decodeCommand_of_encodeSeq {bs : List Byte} (h : encodeSeq c bs = text) (hroom : bs.length ≤ s.capN) :
    decodeCommand c s = complete ((s.memWrite s.dstN bs).setRes bs.length) := by
  have hdecode := (decodeSeq_eq_some_iff c text bs).mpr h
  rw [decodeCommand, if_neg (not_not.mpr hsrc), if_neg (not_not.mpr hdst), ← hlen, withSource_of_holdsAt _ htext, hdecode,
    decodeSeq_length hdecode]
  exact if_neg (Nat.not_lt.mpr hroom)

theorem decodeCommand_of_no_encodeSeq (h : ∀ bs, encodeSeq c bs ≠ text) :
    decodeCommand c s = raise .invalidEncoding s := by
  rw [decodeCommand, if_neg (not_not.mpr hsrc), if_neg (not_not.mpr hdst), ← hlen, withSource_of_holdsAt _ htext,
    (decodeSeq_eq_none_iff c text).mpr h]

/-- A DECODE.c that completes leaves the bytes at DST and their number in RES (R181, R201, R221). -/
theorem decodeCommand_restores {bs : List Byte} (h : encodeSeq c bs = text) (hroom : bs.length ≤ s.capN) :
    ∃ t, decodeCommand c s = .next t ∧ t.statusCode = 0 ∧ t.res.toNat = bs.length ∧ t.holdsAt s.dstN bs := by
  refine ⟨_, decodeCommand_of_encodeSeq hlen hsrc hdst htext h hroom, statusCode_setCode _ _, ?_,
    holdsAt_of_mem_eq (s := s) rfl⟩
  rw [setCode_res, setRes_res, BitVec.toNat_ofNat]
  exact Nat.mod_eq_of_lt (hroom.trans_lt (s.cap.isLt.trans (by decide)))

end Source

theorem exec_decode_of_mem {i : Instr} {c : Codec}
    (h : (i, c) ∈ [(Instr.decodeB10, Codec.base10), (.decodeB45, .base45), (.decodeB94, .base94)]) :
    exec i = decodeCommand c := by
  simp only [List.mem_cons, List.not_mem_nil, or_false, Prod.mk.injEq] at h
  rcases h with ⟨rfl, rfl⟩ | ⟨rfl, rfl⟩ | ⟨rfl, rfl⟩ <;> rfl

/-- Settles O52: a text with its bytes is decoded to them, and a text of no bytes is not decoded. -/
theorem decodeUndoesEncode : Obligations.DecodeUndoesEncode := by
  intro i c hrow s text hlen hsrc hdst htext
  rw [exec_decode_of_mem hrow]
  refine ⟨fun bs h hroom => decodeCommand_restores hlen hsrc hdst htext h hroom, fun h => ?_⟩
  exact ⟨_, decodeCommand_of_no_encodeSeq hlen hsrc hdst htext h, statusCode_setCode s _, setCode_res s _⟩

/-- Both commands read the same text, and each answers by whether it is valid (43_groups.md R162 (d)). -/
theorem decodeCommand_code_iff_validateCommand_res {c : Codec} {s t u : State} (ht : decodeCommand c s = .next t)
    (hu : validateCommand c s = .next u) (hcode : t.statusCode ≠ 2) (hcode' : u.statusCode ≠ 2) :
    t.statusCode = 1 ↔ u.res = 0 := by
  rcases validateCommand_cases hu with rfl | ⟨-, text, htext, rfl⟩
  · exact absurd (statusCode_setCode s _) hcode'
  rcases decodeCommand_cases ht with rfl | ⟨-, -, text', htext', h⟩
  · exact absurd (statusCode_setCode s _) hcode
  obtain rfl : text = text' := Except.ok.inj (htext.symm.trans htext')
  rw [setCode_res, setRes_res]
  rcases h with ⟨hinvalid, rfl⟩ | ⟨bs, hbs, -, rfl⟩
  · simp [hinvalid, Exn.code]
  · have hvalid : valid c text = true := by rw [← decodeSeq_isSome, hbs, Option.isSome_some]
    simp [hvalid, codeOk]

/-- Settles O54: each pair is the two templates of one codec. -/
theorem validationSoundness : Obligations.ValidationSoundness := by
  intro i j hpair s t u ht hu hcode hcode'
  simp only [List.mem_cons, List.not_mem_nil, or_false, Prod.mk.injEq] at hpair
  rcases hpair with ⟨rfl, rfl⟩ | ⟨rfl, rfl⟩ | ⟨rfl, rfl⟩
  · exact decodeCommand_code_iff_validateCommand_res (c := .base10) ht hu hcode hcode'
  · exact decodeCommand_code_iff_validateCommand_res (c := .base45) ht hu hcode hcode'
  · exact decodeCommand_code_iff_validateCommand_res (c := .base94) ht hu hcode hcode'

/-! ## The round trip -/

/-- An ENCODE.c that completes leaves the text of its source at DST, its length in RES, and a next state with MEM_SIZE kept
(R180, R200, R220). -/
theorem of_encodeCommand {c : Codec} {s t : State} {bs : List Byte} (hlen : bs.length = s.lenN)
    (hbs : s.holdsAt s.srcN bs) (h : encodeCommand c s = .next t) (hcode : t.statusCode = 0) :
    t.memSize = s.memSize ∧ t.holdsAt s.dstN (encodeSeq c bs) ∧ s.dstN + (encodeSeq c bs).length ≤ s.memSize ∧
      (encodeSeq c bs).length < 2 ^ 32 ∧ t.res.toNat = (encodeSeq c bs).length := by
  rcases encodeCommand_cases h with rfl | ⟨-, hdst, hroom, bs', hread, rfl⟩
  · rw [statusCode_setCode] at hcode
    cases hcode
  · rw [← hlen, readBytes_of_holdsAt hbs, Except.ok.injEq] at hread
    subst hread
    rw [← hlen, ← encodeSeq_length] at hroom ⊢
    have hlt : (encodeSeq c bs).length < 2 ^ 32 := hroom.trans_lt s.cap.isLt
    refine ⟨rfl, holdsAt_of_mem_eq (s := s) rfl, (Nat.add_le_add_left hroom _).trans hdst, hlt, ?_⟩
    rw [setCode_res, setRes_res, BitVec.toNat_ofNat]
    exact Nat.mod_eq_of_lt (hlt.trans (by decide))

/-- The text that an ENCODE.c stored is decoded to its bytes, wherever they are to go: all of it is read first. -/
theorem decodeCommand_of_encodeCommand {c : Codec} {s t : State} {bs : List Byte} {dst cap : Word}
    (hlen : bs.length = s.lenN) (hbs : s.holdsAt s.srcN bs) (h : encodeCommand c s = .next t) (hcode : t.statusCode = 0)
    (hdst : dst.toNat + cap.toNat ≤ s.memSize) (hroom : bs.length ≤ cap.toNat) :
    ∃ u, decodeCommand c { t with src := s.dst, len := BitVec.ofNat 32 t.res.toNat, dst := dst, cap := cap } = .next u ∧
      u.statusCode = 0 ∧ u.res.toNat = bs.length ∧ u.holdsAt dst.toNat bs := by
  obtain ⟨hsize, htext, hlegal, hlt, hres⟩ := of_encodeCommand hlen hbs h hcode
  have hlenN : (BitVec.ofNat 32 t.res.toNat).toNat = (encodeSeq c bs).length := by
    rw [hres, BitVec.toNat_ofNat, Nat.mod_eq_of_lt hlt]
  refine decodeCommand_restores hlenN.symm ?_ ?_ htext rfl hroom
  · rw [sourceLegal_iff, State.lenN, hlenN, hsize]
    exact hlegal
  · rw [destLegal_iff, hsize]
    exact hdst

/-- Settles O55: each pair is the two templates of one codec. -/
theorem encodeThenDecodeRestoresBytes : Obligations.EncodeThenDecodeRestoresBytes := by
  intro i j hpair s t bs dst cap hlen hbs h hcode hdst hroom
  simp only [List.mem_cons, List.not_mem_nil, or_false, Prod.mk.injEq] at hpair
  rcases hpair with ⟨rfl, rfl⟩ | ⟨rfl, rfl⟩ | ⟨rfl, rfl⟩
  · exact decodeCommand_of_encodeCommand (c := .base10) hlen hbs h hcode hdst hroom
  · exact decodeCommand_of_encodeCommand (c := .base45) hlen hbs h hcode hdst hroom
  · exact decodeCommand_of_encodeCommand (c := .base94) hlen hbs h hcode hdst hroom

end Sys2Proof.Machine
end

section
/-! The five commands of a codec (44_base10.md R180 to R184, 45_base45.md R200 to R204, 46_base94.md R220 to R224): the two
length functions in the tables of 10_state.md R40 and R44 as the spec writes them out, then each template with one lemma per
way it ends. A row of a statement is one codec with its template and its table, so the codecs share every other argument. -/

namespace Sys2Proof.Machine

/-! ## What each end of a command leaves -/

/-- Raising leaves the code of the exception and changes STATUS alone (00_scope.md R14). -/
theorem raise_result (e : Exn) (s : State) :
    ∃ t, raise e s = .next t ∧ t.statusCode = e.code ∧ t = { s with status := t.status } :=
  ⟨_, rfl, statusCode_setCode s _, setCode_frame s _⟩

/-- Completing with a result that fits RES leaves code 0 and the result, and changes STATUS and RES alone. -/
theorem complete_setRes_result (s : State) {n : Nat} (h : n < 2 ^ 64) :
    ∃ t, complete (s.setRes n) = .next t ∧ t.statusCode = 0 ∧ t = { s with status := t.status, res := t.res } ∧
      t.res.toNat = n := by
  refine ⟨_, rfl, statusCode_setCode _ _, setRes_setCode_frame s _ _, ?_⟩
  rw [setCode_res, setRes_res, BitVec.toNat_ofNat, Nat.mod_eq_of_lt h]

/-- Completing with stored bytes leaves them in MEM and their number in RES, and changes no byte beside them. -/
theorem complete_memWrite_result (s : State) (a : Nat) {bs : List Byte} (h : bs.length < 2 ^ 64) :
    ∃ t, complete ((s.memWrite a bs).setRes bs.length) = .next t ∧ t.statusCode = 0 ∧
      t = { s with status := t.status, res := t.res, mem := t.mem } ∧ t.res.toNat = bs.length ∧ t.holdsAt a bs ∧
      ∀ x, x < a ∨ a + bs.length ≤ x → t.mem.read x = s.mem.read x := by
  refine ⟨_, rfl, statusCode_setCode _ _, memWrite_setRes_setCode_frame s _ _ _ _, ?_, holdsAt_of_mem_eq (s := s) rfl,
    fun x hx => ?_⟩
  · rw [setCode_res, setRes_res, BitVec.toNat_ofNat, Nat.mod_eq_of_lt h]
  · rw [setCode_mem, setRes_mem, memWrite_mem, read_writeBytes_outside _ _ hx]

/-! ## The length functions in the tables written out -/

/-- A remainder of bytes has the symbols at its place in P[0..GB-1], the table that the spec writes out. -/
theorem symbolCount_eq_getElem! {c : Codec} {r : Nat} (h : r < c.groupBytes) :
    c.symbolCount r = (0 :: c.partialTable)[r]! := by
  have hlength : (0 :: c.partialTable).length = c.groupBytes := by cases c <;> rfl
  rw [Codec.symbolCount, Codec.countTable, List.getElem?_append_left (hlength ▸ h), List.getElem!_eq_getElem?_getD]
  rfl

/-- symLen_c in the table written out (43_groups.md R151). -/
theorem symLen_eq_table (c : Codec) (n : Nat) :
    symLen c n = n / c.groupBytes * c.groupSymbols + (0 :: c.partialTable)[n % c.groupBytes]! := by
  rw [symLen, symbolCount_eq_getElem! (Nat.mod_lt n (groupBytes_pos c))]

/-- The pairs of a remainder of symbols and its byte count (10_state.md R44). -/
def byteTable (c : Codec) : List (Nat × Nat) := (0 :: c.partialTable).zipIdx

/-- The pairs are Pinv below a full run: the entry GS of the whole table belongs to no remainder. -/
theorem mem_byteTable_iff {c : Codec} {k r : Nat} (h : k < c.groupSymbols) :
    (k, r) ∈ byteTable c ↔ c.byteCount k = some r := by
  rw [byteTable, List.mk_mem_zipIdx_iff_getElem?, byteCount_eq_some_iff, Codec.countTable, List.getElem?_append]
  split
  · rfl
  · next hr =>
    rw [List.getElem?_eq_none (Nat.not_lt.mp hr)]
    exact ⟨nofun, fun hk => absurd (List.mem_singleton.mp (List.mem_of_getElem? hk)) h.ne⟩

/-- byteLen_c in the pairs (43_groups.md R153). -/
theorem byteLen_eq_some_iff_table (c : Codec) (L n : Nat) : byteLen c L = some n ↔
    ∃ r, (L % c.groupSymbols, r) ∈ byteTable c ∧ L / c.groupSymbols * c.groupBytes + r = n := by
  simp only [byteLen, Option.map_eq_some_iff, mem_byteTable_iff (Nat.mod_lt L (groupSymbols_pos c))]

theorem byteLen_eq_none_iff_table (c : Codec) (L : Nat) : byteLen c L = none ↔
    ∀ r, (L % c.groupSymbols, r) ∉ byteTable c := by
  rw [byteLen, Option.map_eq_none_iff, Option.eq_none_iff_forall_ne_some]
  simp only [mem_byteTable_iff (Nat.mod_lt L (groupSymbols_pos c)), ne_eq]

/-! ## The length functions fit RES (10_state.md R30) -/

/-- A group takes at most 17 symbols, and there are at most as many full groups as bytes. -/
theorem symLen_lt_two_pow (c : Codec) {n : Nat} (h : n < 2 ^ 32) : symLen c n < 2 ^ 64 := by
  have hcount : c.symbolCount (n % c.groupBytes) < c.groupSymbols := symbolCount_lt (Nat.mod_lt n (groupBytes_pos c))
  have hgroups : n / c.groupBytes * c.groupSymbols ≤ n * 17 :=
    Nat.mul_le_mul (Nat.div_le_self _ _) (by cases c <;> decide)
  have hsymbols : c.groupSymbols ≤ 17 := by cases c <;> decide
  rw [symLen]
  omega

/-- A text has at least as many symbols as bytes. -/
theorem le_of_byteLen {c : Codec} {L n : Nat} (h : byteLen c L = some n) : n ≤ L :=
  (symLen_strictMono c).le_apply.trans_eq (symLen_of_byteLen h)

/-! ## SYMLEN.c and BYTELEN.c -/

theorem symLenCommand_result (c : Codec) (s : State) : ∃ t, symLenCommand c s = .next t ∧ t.statusCode = 0 ∧
    t = { s with status := t.status, res := t.res } ∧ t.res.toNat = symLen c s.lenN :=
  complete_setRes_result s (symLen_lt_two_pow c s.len.isLt)

/-- Settles O42: each row is a codec with its own template and table. -/
theorem symlenResult : Obligations.SymlenResult := by
  intro w i GB GS P hrow
  obtain ⟨c, hdecode, hexec, rfl, rfl, rfl⟩ : ∃ c : Codec, decode w = .ok i ∧ exec i = symLenCommand c ∧
      GB = c.groupBytes ∧ GS = c.groupSymbols ∧ P = 0 :: c.partialTable := by
    simp only [List.mem_cons, List.not_mem_nil, or_false, Prod.mk.injEq] at hrow
    rcases hrow with ⟨rfl, rfl, rfl, rfl, rfl⟩ | ⟨rfl, rfl, rfl, rfl, rfl⟩ | ⟨rfl, rfl, rfl, rfl, rfl⟩
    · exact ⟨.base10, decode_encode .symlenB10, rfl, rfl, rfl, rfl⟩
    · exact ⟨.base45, decode_encode .symlenB45, rfl, rfl, rfl, rfl⟩
    · exact ⟨.base94, decode_encode .symlenB94, rfl, rfl, rfl, rfl⟩
  refine ⟨hdecode, fun s => ?_⟩
  rw [hexec, ← symLen_eq_table]
  exact symLenCommand_result c s

theorem byteLenCommand_of_some {c : Codec} {s : State} {n : Nat} (h : byteLen c s.lenN = some n) :
    byteLenCommand c s = complete (s.setRes n) := by
  rw [byteLenCommand, h]

theorem byteLenCommand_of_none {c : Codec} {s : State} (h : byteLen c s.lenN = none) :
    byteLenCommand c s = raise .invalidEncoding s := by
  rw [byteLenCommand, h]

/-- Settles O43: each row is a codec with its own template and table; no byte count is above LEN, so it fits RES. -/
theorem bytelenResult : Obligations.BytelenResult := by
  intro w i GS GB tbl hrow
  obtain ⟨c, hdecode, hexec, rfl, rfl, rfl⟩ : ∃ c : Codec, decode w = .ok i ∧ exec i = byteLenCommand c ∧
      GS = c.groupSymbols ∧ GB = c.groupBytes ∧ tbl = byteTable c := by
    simp only [List.mem_cons, List.not_mem_nil, or_false, Prod.mk.injEq] at hrow
    rcases hrow with ⟨rfl, rfl, rfl, rfl, rfl⟩ | ⟨rfl, rfl, rfl, rfl, rfl⟩ | ⟨rfl, rfl, rfl, rfl, rfl⟩
    · exact ⟨.base10, decode_encode .bytelenB10, rfl, rfl, rfl, rfl⟩
    · exact ⟨.base45, decode_encode .bytelenB45, rfl, rfl, rfl, rfl⟩
    · exact ⟨.base94, decode_encode .bytelenB94, rfl, rfl, rfl, rfl⟩
  refine ⟨hdecode, fun s => ?_⟩
  rw [hexec]
  refine ⟨fun r hr => ?_, fun hr => ?_⟩
  · have hlen := (byteLen_eq_some_iff_table c s.lenN _).mpr ⟨r, hr, rfl⟩
    rw [byteLenCommand_of_some hlen]
    exact complete_setRes_result s ((le_of_byteLen hlen).trans_lt (s.len.isLt.trans (by decide)))
  · rw [byteLenCommand_of_none ((byteLen_eq_none_iff_table c s.lenN).mpr hr)]
    exact raise_result .invalidEncoding s

/-! ## ENCODE.c -/

theorem encodeCommand_traps {c : Codec} {s : State}
    (h : s.srcN + s.lenN > s.memSize ∨ s.dstN + s.capN > s.memSize ∨ symLen c s.lenN > s.capN) :
    encodeCommand c s = raise .outOfRange s := by
  unfold encodeCommand
  split
  · rfl
  · next hsrc =>
    rw [sourceLegal_iff] at hsrc
    split
    · rfl
    · next hdst =>
      rw [destLegal_iff] at hdst
      exact if_pos (by omega)

theorem encodeCommand_completes {c : Codec} {s : State} {bs : List Byte} (hlen : bs.length = s.lenN)
    (hsrc : s.sourceLegal) (hdst : s.destLegal) (hroom : symLen c s.lenN ≤ s.capN) (hbs : s.holdsAt s.srcN bs) :
    encodeCommand c s =
      complete ((s.memWrite s.dstN (encodeSeq c bs)).setRes (encodeSeq c bs).length) := by
  rw [encodeCommand, if_neg (not_not.mpr hsrc), if_neg (not_not.mpr hdst), if_neg (Nat.not_lt.mpr hroom), ← hlen,
    withSource_of_holdsAt _ hbs, encodeSeq_length]

/-- Settles O44: each row is a codec with its own template and table; the text has as many symbols as symLen says. -/
theorem encodeResult : Obligations.EncodeResult := by
  intro w i c GB GS P hrow
  obtain ⟨hdecode, hexec, rfl, rfl, rfl⟩ : decode w = .ok i ∧ exec i = encodeCommand c ∧ GB = c.groupBytes ∧
      GS = c.groupSymbols ∧ P = 0 :: c.partialTable := by
    simp only [List.mem_cons, List.not_mem_nil, or_false, Prod.mk.injEq] at hrow
    rcases hrow with ⟨rfl, rfl, rfl, rfl, rfl, rfl⟩ | ⟨rfl, rfl, rfl, rfl, rfl, rfl⟩ | ⟨rfl, rfl, rfl, rfl, rfl, rfl⟩
    · exact ⟨decode_encode .encodeB10, rfl, rfl, rfl, rfl⟩
    · exact ⟨decode_encode .encodeB45, rfl, rfl, rfl, rfl⟩
    · exact ⟨decode_encode .encodeB94, rfl, rfl, rfl, rfl⟩
  refine ⟨hdecode, fun s => ?_⟩
  rw [hexec, ← symLen_eq_table]
  refine ⟨fun h => ?_, fun bs hlen hsrc hdst hroom hbs => ?_⟩
  · rw [encodeCommand_traps h]
    exact raise_result .outOfRange s
  · have hcount : (encodeSeq c bs).length = symLen c s.len.toNat := by rw [encodeSeq_length, hlen]
    have hfit : (encodeSeq c bs).length < 2 ^ 64 := hcount.trans_lt (symLen_lt_two_pow c s.len.isLt)
    obtain ⟨t, ht, hcode, hframe, hres, hholds, hkept⟩ := complete_memWrite_result s s.dstN hfit
    rw [hcount] at hres hkept
    exact ⟨t, (encodeCommand_completes hlen hsrc hdst hroom hbs).trans ht, hcode, hframe, hres, hcount, hholds, hkept⟩

/-! ## DECODE.c -/

theorem decodeCommand_traps_region {c : Codec} {s : State}
    (h : s.srcN + s.lenN > s.memSize ∨ s.dstN + s.capN > s.memSize) : decodeCommand c s = raise .outOfRange s := by
  unfold decodeCommand
  split
  · rfl
  · next hsrc =>
    rw [sourceLegal_iff] at hsrc
    exact if_pos (by rw [destLegal_iff]; omega)

section Source

variable {c : Codec} {s : State} {text : List Byte} (hlen : text.length = s.lenN) (hsrc : s.sourceLegal)
  (hdst : s.destLegal) (htext : s.holdsAt s.srcN text)
include hlen hsrc hdst htext

theorem decodeCommand_invalid (h : valid c text = false) : decodeCommand c s = raise .invalidEncoding s := by
  refine decodeCommand_of_no_encodeSeq hlen hsrc hdst htext fun bs hbs => ?_
  have hvalid : valid c text = true := (valid_iff_exists_encodeSeq c text).mpr ⟨bs, hbs⟩
  rw [h] at hvalid
  cases hvalid

/-- The capacity is checked after validity (60_exceptions.md R245). -/
theorem decodeCommand_traps_capacity {bs : List Byte} (h : decodeSeq c text = some bs) (hroom : bs.length > s.capN) :
    decodeCommand c s = raise .outOfRange s := by
  rw [decodeCommand, if_neg (not_not.mpr hsrc), if_neg (not_not.mpr hdst), ← hlen, withSource_of_holdsAt _ htext, h,
    decodeSeq_length h]
  exact if_pos hroom

end Source

/-- A valid text has the byte count of its length by the table (43_groups.md R153, R161). -/
theorem exists_decodeSeq_of_valid {c : Codec} {t : List Byte} (h : valid c t = true) :
    ∃ r bs, (t.length % c.groupSymbols, r) ∈ byteTable c ∧ decodeSeq c t = some bs ∧
      bs.length = t.length / c.groupSymbols * c.groupBytes + r := by
  rw [← decodeSeq_isSome] at h
  obtain ⟨bs, hbs⟩ := Option.isSome_iff_exists.mp h
  obtain ⟨r, hr, hcount⟩ := (byteLen_eq_some_iff_table c _ _).mp (decodeSeq_length hbs)
  exact ⟨r, bs, hr, hbs, hcount.symm⟩

/-- Settles O51: each row is a codec with its own template and table; the outcomes are those of the template's checks. -/
theorem decodeResult : Obligations.DecodeResult := by
  intro w i c GS GB tbl hrow
  obtain ⟨hdecode, hexec, rfl, rfl, rfl⟩ : decode w = .ok i ∧ exec i = decodeCommand c ∧ GS = c.groupSymbols ∧
      GB = c.groupBytes ∧ tbl = byteTable c := by
    simp only [List.mem_cons, List.not_mem_nil, or_false, Prod.mk.injEq] at hrow
    rcases hrow with ⟨rfl, rfl, rfl, rfl, rfl, rfl⟩ | ⟨rfl, rfl, rfl, rfl, rfl, rfl⟩ | ⟨rfl, rfl, rfl, rfl, rfl, rfl⟩
    · exact ⟨decode_encode .decodeB10, rfl, rfl, rfl, rfl⟩
    · exact ⟨decode_encode .decodeB45, rfl, rfl, rfl, rfl⟩
    · exact ⟨decode_encode .decodeB94, rfl, rfl, rfl, rfl⟩
  refine ⟨hdecode, fun s => ?_⟩
  rw [hexec]
  refine ⟨fun h => ?_, fun text hlen hsrc hdst htext => ⟨fun hinvalid => ?_, fun hvalid => ?_⟩⟩
  · rw [decodeCommand_traps_region h]
    exact raise_result .outOfRange s
  · rw [decodeCommand_invalid hlen hsrc hdst htext hinvalid]
    exact raise_result .invalidEncoding s
  · obtain ⟨r, bs, hr, hbs, hcount⟩ := exists_decodeSeq_of_valid hvalid
    rw [hlen] at hr hcount
    refine ⟨r, bs, hr, hbs, hcount, fun hroom => ?_, fun hroom => ?_⟩
    · rw [decodeCommand_traps_capacity hlen hsrc hdst htext hbs hroom]
      exact raise_result .outOfRange s
    · rw [decodeCommand_of_encodeSeq hlen hsrc hdst htext (encodeSeq_of_decodeSeq hbs) hroom]
      exact complete_memWrite_result s s.dstN (hroom.trans_lt (s.cap.isLt.trans (by decide)))

/-! ## VALIDATE.c -/

theorem validateCommand_traps {c : Codec} {s : State} (h : s.srcN + s.lenN > s.memSize) :
    validateCommand c s = raise .outOfRange s :=
  if_pos (Nat.not_le.mpr h)

theorem validateCommand_completes {c : Codec} {s : State} {text : List Byte} (hlen : text.length = s.lenN)
    (hsrc : s.sourceLegal) (htext : s.holdsAt s.srcN text) :
    validateCommand c s = complete (s.setRes (if valid c text then 1 else 0)) := by
  rw [validateCommand, if_neg (not_not.mpr hsrc), ← hlen, withSource_of_holdsAt _ htext]

/-- Settles O53: each row is a codec with its own template, and the valid texts are the encodings. -/
theorem validateResult : Obligations.ValidateResult := by
  intro w i c hrow
  obtain ⟨hdecode, hexec⟩ : decode w = .ok i ∧ exec i = validateCommand c := by
    simp only [List.mem_cons, List.not_mem_nil, or_false, Prod.mk.injEq] at hrow
    rcases hrow with ⟨rfl, rfl, rfl⟩ | ⟨rfl, rfl, rfl⟩ | ⟨rfl, rfl, rfl⟩
    · exact ⟨decode_encode .validateB10, rfl⟩
    · exact ⟨decode_encode .validateB45, rfl⟩
    · exact ⟨decode_encode .validateB94, rfl⟩
  refine ⟨hdecode, fun s => ?_⟩
  rw [hexec]
  refine ⟨fun h => ?_, fun text hlen hsrc htext => ?_⟩
  · rw [validateCommand_traps h]
    exact raise_result .outOfRange s
  · refine ⟨_, validateCommand_completes hlen hsrc htext, statusCode_setCode _ _, setRes_setCode_frame s _ _, ?_⟩
    rw [setCode_res, setRes_res, ← valid_iff_exists_encodeSeq]
    cases valid c text <;> decide

end Sys2Proof.Machine
end

section
/-! The outcomes of the commands (60_exceptions.md R244 to R247): a failing command leaves its code alone, no command ends
outside its row of the outcome table and some state reaches each code of the row, and no command looks at the code before
it. The codes of a template are read off the lemma that says what the template can do. -/

namespace Sys2Proof.Machine

/-! ## A failing command -/

/-- A failing command has written its code, hence STATUS[3:0] alone (60_exceptions.md R246). -/
theorem exec_frame_of_failed {i : Instr} {s t : State} (h : exec i s = .next t) (hcode : t.statusCode ≠ 0) :
    t = { s with status := t.status } := by
  rw [exec_eq_setCode_of_failed h hcode]
  exact setCode_frame s _

/-- A failing CMD write, of a legal word or not, has written CMD and its code. -/
theorem runCommand_of_failed {w : Word} {s t : State} (h : runCommand w s = .next t) (hcode : t.statusCode ≠ 0) :
    t = { s with cmd := w, status := t.status } ∧ t.status &&& 0xFFFFFFF0#32 = s.status &&& 0xFFFFFFF0#32 := by
  rcases runCommand_cases w s with ⟨-, -, hr⟩ | ⟨i, -, hr⟩
  · rw [hr, Host.Outcome.next.injEq] at h
    subst h
    exact ⟨rfl, status_high_setCode _ _⟩
  · rw [hr] at h
    exact ⟨exec_frame_of_failed h hcode, exec_status_high (s := s.setCmd w) h⟩

/-- Settles O20: a command that does not complete raised, and a CMD write runs a command or raises IllegalCommand. -/
theorem failingCommandChangesOnlyCode : Obligations.FailingCommandChangesOnlyCode := by
  refine ⟨fun i s t h hcode => ⟨exec_frame_of_failed h hcode, exec_status_high h⟩, fun w s t h hcode => ?_⟩
  rw [hostOp_writeCmd w.isLt, BitVec.ofNat_toNat, BitVec.setWidth_eq] at h
  exact runCommand_of_failed h hcode

/-! ## The codes a command can end in -/

theorem statusCode_setCode_mem {s : State} {c : BitVec 4} {row : List (BitVec 4)} (h : c ∈ row) :
    (s.setCode c).statusCode ∈ row := by
  rwa [statusCode_setCode]

theorem execRead56_statusCode_mem {s t : State} (h : execRead56 s = .next t) : t.statusCode ∈ outcomesOf .read56 := by
  rcases execRead56_cases h with rfl | ⟨-, -, bs, -, rfl⟩
  · exact statusCode_setCode_mem (by decide)
  · exact statusCode_setCode_mem (by decide)

theorem execWrite56_statusCode_mem {s t : State} (h : execWrite56 s = .next t) :
    t.statusCode ∈ outcomesOf .write56 := by
  rcases execWrite56_cases h with rfl | ⟨-, -, -, rfl⟩
  · exact statusCode_setCode_mem (by decide)
  · exact statusCode_setCode_mem (by decide)

section
variable {c : Codec} {s t : State}

theorem radixEncCommand_statusCode_mem (h : radixEncCommand c s = .next t) :
    t.statusCode ∈ [codeOk, Exn.outOfRange.code] := by
  rcases radixEncCommand_cases h with rfl | ⟨-, -, -, -, rfl⟩
  · exact statusCode_setCode_mem (by decide)
  · exact statusCode_setCode_mem (by decide)

theorem radixDecCommand_statusCode_mem (h : radixDecCommand c s = .next t) :
    t.statusCode ∈ [codeOk, Exn.invalidEncoding.code, Exn.outOfRange.code] := by
  rcases radixDecCommand_cases h with rfl | ⟨-, -, syms, -, ⟨-, rfl⟩ | ⟨v, -, rfl⟩⟩
  · exact statusCode_setCode_mem (by decide)
  · exact statusCode_setCode_mem (by decide)
  · exact statusCode_setCode_mem (by decide)

theorem encodeCommand_statusCode_mem (h : encodeCommand c s = .next t) :
    t.statusCode ∈ [codeOk, Exn.outOfRange.code] := by
  rcases encodeCommand_cases h with rfl | ⟨-, -, -, bs, -, rfl⟩
  · exact statusCode_setCode_mem (by decide)
  · exact statusCode_setCode_mem (by decide)

theorem decodeCommand_statusCode_mem (h : decodeCommand c s = .next t) :
    t.statusCode ∈ [codeOk, Exn.invalidEncoding.code, Exn.outOfRange.code] := by
  rcases decodeCommand_cases h with rfl | ⟨-, -, syms, -, ⟨-, rfl⟩ | ⟨bs, -, -, rfl⟩⟩
  · exact statusCode_setCode_mem (by decide)
  · exact statusCode_setCode_mem (by decide)
  · exact statusCode_setCode_mem (by decide)

theorem validateCommand_statusCode_mem (h : validateCommand c s = .next t) :
    t.statusCode ∈ [codeOk, Exn.outOfRange.code] := by
  rcases validateCommand_cases h with rfl | ⟨-, syms, -, rfl⟩
  · exact statusCode_setCode_mem (by decide)
  · exact statusCode_setCode_mem (by decide)

theorem symLenCommand_statusCode_mem (h : symLenCommand c s = .next t) : t.statusCode ∈ [codeOk] := by
  rw [symLenCommand, complete_eq_next_iff] at h
  subst h
  exact statusCode_setCode_mem (by decide)

theorem byteLenCommand_statusCode_mem (h : byteLenCommand c s = .next t) :
    t.statusCode ∈ [codeOk, Exn.invalidEncoding.code] := by
  rcases byteLenCommand_cases h with ⟨-, rfl⟩ | ⟨n, -, rfl⟩
  · exact statusCode_setCode_mem (by decide)
  · exact statusCode_setCode_mem (by decide)

end

/-- A command ends only in a code of its row (60_exceptions.md R244). -/
theorem exec_statusCode_mem {i : Instr} {s t : State} (h : exec i s = .next t) : t.statusCode ∈ outcomesOf i := by
  cases i with
  | read56 => exact execRead56_statusCode_mem h
  | write56 => exact execWrite56_statusCode_mem h
  | radixencB10 | radixencB45 | radixencB94 => exact radixEncCommand_statusCode_mem h
  | radixdecB10 | radixdecB45 | radixdecB94 => exact radixDecCommand_statusCode_mem h
  | encodeB10 | encodeB45 | encodeB94 => exact encodeCommand_statusCode_mem h
  | decodeB10 | decodeB45 | decodeB94 => exact decodeCommand_statusCode_mem h
  | validateB10 | validateB45 | validateB94 => exact validateCommand_statusCode_mem h
  | symlenB10 | symlenB45 | symlenB94 => exact symLenCommand_statusCode_mem h
  | bytelenB10 | bytelenB45 | bytelenB94 => exact byteLenCommand_statusCode_mem h

/-! ## Each code of a row is reached -/

/-- From some state that meets the invariant the meaning ends in the code. -/
def ReachesCode (meaning : State → Result) (c : BitVec 4) : Prop :=
  ∃ s t : State, s.wf ∧ meaning s = .next t ∧ t.statusCode = c

theorem ReachesCode.of_raise {meaning : State → Result} {e : Exn} {s : State} (hs : s.wf) (h : meaning s = raise e s) :
    ReachesCode meaning e.code :=
  ⟨s, _, hs, h, statusCode_setCode s _⟩

theorem ReachesCode.of_complete {meaning : State → Result} {s s' : State} (hs : s.wf) (h : meaning s = complete s') :
    ReachesCode meaning codeOk :=
  ⟨s, _, hs, h, statusCode_setCode s' _⟩

/-- The block after reset, with seven bytes in MEM and room for seven: READ56 and WRITE56 complete. -/
def sevenBytes : State :=
  { State.reset with len := 7, cap := 7, mem := [(0, 1), (1, 2), (2, 3), (3, 4), (4, 5), (5, 6), (6, 7)] }

/-- The block after reset, with both regions past MEM: every command with a region raises OutOfRange. -/
def regionsPastMem : State := { State.reset with src := 0xFFFFFFFF, dst := 0xFFFFFFFF }

/-- The block after reset, with one byte as its source that is no symbol of any codec; nor is 1 the length of a text. -/
def oneBadSymbol : State := { State.reset with len := 1, mem := [(0, 0xFF)] }

theorem reset_wf : State.reset.wf := resetWith_wf (by decide) (by decide) _

theorem sevenBytes_wf : sevenBytes.wf := by decide

theorem regionsPastMem_wf : regionsPastMem.wf := by decide

theorem oneBadSymbol_wf : oneBadSymbol.wf := by decide

theorem inAlphabet_badSymbol (c : Codec) : c.inAlphabet 0xFF = false := by cases c <;> decide

/-! ### Completing

With all operands 0 a command other than READ56 and WRITE56 works on no bytes and no symbols. -/

theorem reset_sourceLegal : State.reset.sourceLegal := by decide

theorem reset_destLegal : State.reset.destLegal := by decide

theorem reset_holdsAt_nil : State.reset.holdsAt State.reset.srcN [] := fun j => j.elim0

theorem execRead56_reaches_ok : ReachesCode execRead56 codeOk :=
  have hbytes : sevenBytes.holdsAt 0 [1, 2, 3, 4, 5, 6, 7] := by decide
  .of_complete sevenBytes_wf (execRead56_completes (by decide) (by decide) rfl hbytes)

theorem execWrite56_reaches_ok : ReachesCode execWrite56 codeOk :=
  .of_complete sevenBytes_wf (execWrite56_completes (by decide) (by decide) (by decide))

theorem radixEncCommand_reaches_ok (c : Codec) : ReachesCode (radixEncCommand c) codeOk :=
  .of_complete reset_wf
    (radixEncCommand_completes reset_destLegal (Nat.zero_le _) (by cases c <;> decide) (Nat.le_refl 0))

theorem radixDecCommand_reaches_ok (c : Codec) : ReachesCode (radixDecCommand c) codeOk :=
  have hparse : parse c [] = some 0 := by cases c <;> rfl
  .of_complete reset_wf
    (radixDecCommand_of_parse_some rfl reset_sourceLegal (Nat.zero_le _) reset_holdsAt_nil hparse)

theorem encodeCommand_reaches_ok (c : Codec) : ReachesCode (encodeCommand c) codeOk :=
  have hroom : symLen c 0 ≤ 0 := by cases c <;> decide
  .of_complete reset_wf (encodeCommand_completes rfl reset_sourceLegal reset_destLegal hroom reset_holdsAt_nil)

theorem decodeCommand_reaches_ok (c : Codec) : ReachesCode (decodeCommand c) codeOk :=
  .of_complete reset_wf
    (decodeCommand_of_encodeSeq rfl reset_sourceLegal reset_destLegal reset_holdsAt_nil (encodeSeq_nil c) (Nat.zero_le _))

theorem validateCommand_reaches_ok (c : Codec) : ReachesCode (validateCommand c) codeOk :=
  .of_complete reset_wf (validateCommand_completes rfl reset_sourceLegal reset_holdsAt_nil)

theorem symLenCommand_reaches_ok (c : Codec) : ReachesCode (symLenCommand c) codeOk :=
  .of_complete (s := State.reset) reset_wf rfl

theorem byteLenCommand_reaches_ok (c : Codec) : ReachesCode (byteLenCommand c) codeOk :=
  have hlen : byteLen c 0 = some 0 := by cases c <;> decide
  .of_complete (s := State.reset) reset_wf (byteLenCommand_of_some hlen)

theorem exec_reaches_ok (i : Instr) : ReachesCode (exec i) codeOk := by
  cases i with
  | read56 => exact execRead56_reaches_ok
  | write56 => exact execWrite56_reaches_ok
  | radixencB10 | radixencB45 | radixencB94 => exact radixEncCommand_reaches_ok _
  | radixdecB10 | radixdecB45 | radixdecB94 => exact radixDecCommand_reaches_ok _
  | encodeB10 | encodeB45 | encodeB94 => exact encodeCommand_reaches_ok _
  | decodeB10 | decodeB45 | decodeB94 => exact decodeCommand_reaches_ok _
  | validateB10 | validateB45 | validateB94 => exact validateCommand_reaches_ok _
  | symlenB10 | symlenB45 | symlenB94 => exact symLenCommand_reaches_ok _
  | bytelenB10 | bytelenB45 | bytelenB94 => exact byteLenCommand_reaches_ok _

/-! ### Raising OutOfRange -/

theorem regionsPastMem_source : regionsPastMem.srcN + regionsPastMem.lenN > regionsPastMem.memSize := by decide

theorem regionsPastMem_dest : regionsPastMem.dstN + regionsPastMem.capN > regionsPastMem.memSize := by decide

theorem execRead56_reaches_outOfRange : ReachesCode execRead56 Exn.outOfRange.code :=
  .of_raise regionsPastMem_wf (execRead56_traps (.inl regionsPastMem_source))

theorem execWrite56_reaches_outOfRange : ReachesCode execWrite56 Exn.outOfRange.code :=
  .of_raise regionsPastMem_wf (execWrite56_traps (.inl regionsPastMem_dest))

theorem radixEncCommand_reaches_outOfRange (c : Codec) : ReachesCode (radixEncCommand c) Exn.outOfRange.code :=
  .of_raise regionsPastMem_wf (radixEncCommand_traps (.inl regionsPastMem_dest))

theorem radixDecCommand_reaches_outOfRange (c : Codec) : ReachesCode (radixDecCommand c) Exn.outOfRange.code :=
  .of_raise regionsPastMem_wf (radixDecCommand_traps (.inl regionsPastMem_source))

theorem encodeCommand_reaches_outOfRange (c : Codec) : ReachesCode (encodeCommand c) Exn.outOfRange.code :=
  .of_raise regionsPastMem_wf (encodeCommand_traps (.inl regionsPastMem_source))

theorem decodeCommand_reaches_outOfRange (c : Codec) : ReachesCode (decodeCommand c) Exn.outOfRange.code :=
  .of_raise regionsPastMem_wf (decodeCommand_traps_region (.inl regionsPastMem_source))

theorem validateCommand_reaches_outOfRange (c : Codec) : ReachesCode (validateCommand c) Exn.outOfRange.code :=
  .of_raise regionsPastMem_wf (validateCommand_traps regionsPastMem_source)

/-- SYMLEN and BYTELEN have no region; every other command raises OutOfRange where its region is illegal. -/
theorem exec_reaches_outOfRange {i : Instr} (h : Exn.outOfRange.code ∈ outcomesOf i) :
    ReachesCode (exec i) Exn.outOfRange.code := by
  cases i with
  | read56 => exact execRead56_reaches_outOfRange
  | write56 => exact execWrite56_reaches_outOfRange
  | radixencB10 | radixencB45 | radixencB94 => exact radixEncCommand_reaches_outOfRange _
  | radixdecB10 | radixdecB45 | radixdecB94 => exact radixDecCommand_reaches_outOfRange _
  | encodeB10 | encodeB45 | encodeB94 => exact encodeCommand_reaches_outOfRange _
  | decodeB10 | decodeB45 | decodeB94 => exact decodeCommand_reaches_outOfRange _
  | validateB10 | validateB45 | validateB94 => exact validateCommand_reaches_outOfRange _
  | symlenB10 | symlenB45 | symlenB94 | bytelenB10 | bytelenB45 | bytelenB94 => exact absurd h (by decide)

/-! ### Raising InvalidEncoding -/

theorem oneBadSymbol_sourceLegal : oneBadSymbol.sourceLegal := by decide

theorem oneBadSymbol_holdsAt : oneBadSymbol.holdsAt 0 [0xFF] := by decide

theorem radixDecCommand_reaches_invalidEncoding (c : Codec) :
    ReachesCode (radixDecCommand c) Exn.invalidEncoding.code :=
  have hparse : parse c [0xFF] = none := parse_eq_none ⟨0xFF, List.mem_singleton_self _, inAlphabet_badSymbol c⟩
  .of_raise oneBadSymbol_wf
    (radixDecCommand_of_parse_none rfl oneBadSymbol_sourceLegal (groupSymbols_pos c) oneBadSymbol_holdsAt hparse)

theorem decodeCommand_reaches_invalidEncoding (c : Codec) : ReachesCode (decodeCommand c) Exn.invalidEncoding.code := by
  have hinvalid : valid c [0xFF] = false := by
    rw [valid, List.all_cons, inAlphabet_badSymbol]
    rfl
  exact .of_raise oneBadSymbol_wf
    (decodeCommand_invalid rfl oneBadSymbol_sourceLegal (by decide) oneBadSymbol_holdsAt hinvalid)

theorem byteLenCommand_reaches_invalidEncoding (c : Codec) :
    ReachesCode (byteLenCommand c) Exn.invalidEncoding.code :=
  have hlen : byteLen c 1 = none := by cases c <;> decide
  .of_raise oneBadSymbol_wf (byteLenCommand_of_none hlen)

/-- RADIXDEC and DECODE reject the symbol, and BYTELEN the length 1; no other command has the code in its row. -/
theorem exec_reaches_invalidEncoding {i : Instr} (h : Exn.invalidEncoding.code ∈ outcomesOf i) :
    ReachesCode (exec i) Exn.invalidEncoding.code := by
  cases i with
  | radixdecB10 | radixdecB45 | radixdecB94 => exact radixDecCommand_reaches_invalidEncoding _
  | decodeB10 | decodeB45 | decodeB94 => exact decodeCommand_reaches_invalidEncoding _
  | bytelenB10 | bytelenB45 | bytelenB94 => exact byteLenCommand_reaches_invalidEncoding _
  | read56 | write56 | radixencB10 | radixencB45 | radixencB94 | encodeB10 | encodeB45 | encodeB94 | validateB10
  | validateB45 | validateB94 | symlenB10 | symlenB45 | symlenB94 => exact absurd h (by decide)

/-! ### The whole row -/

/-- No row holds a code beside 0, 1 and 2: IllegalCommand is for words that are no command (60_exceptions.md R243). -/
theorem eq_of_mem_outcomesOf {i : Instr} {c : BitVec 4} (h : c ∈ outcomesOf i) :
    c = codeOk ∨ c = Exn.invalidEncoding.code ∨ c = Exn.outOfRange.code := by
  revert c
  cases i <;> decide

/-- Settles O21: a command ends in a code of its row, and completes, raises InvalidEncoding or raises OutOfRange from a
state of its own for each. -/
theorem outcomeTable : Obligations.OutcomeTable := by
  refine fun i => ⟨fun s t h => exec_statusCode_mem h, fun c hc => ?_⟩
  rcases eq_of_mem_outcomesOf hc with rfl | rfl | rfl
  · exact exec_reaches_ok i
  · exact exec_reaches_invalidEncoding hc
  · exact exec_reaches_outOfRange hc

/-! ## The code before a command

A command reads no operand, region or byte from STATUS, and each of its ends overwrites the code. -/

section
variable (s : State) (k : BitVec 4)

@[simp] theorem srcN_setCode : (s.setCode k).srcN = s.srcN := rfl
@[simp] theorem lenN_setCode : (s.setCode k).lenN = s.lenN := rfl
@[simp] theorem dstN_setCode : (s.setCode k).dstN = s.dstN := rfl
@[simp] theorem capN_setCode : (s.setCode k).capN = s.capN := rfl
@[simp] theorem offN_setCode : (s.setCode k).offN = s.offN := rfl
@[simp] theorem valN_setCode : (s.setCode k).valN = s.valN := rfl
@[simp] theorem sourceLegal_setCode : (s.setCode k).sourceLegal ↔ s.sourceLegal := .rfl
@[simp] theorem destLegal_setCode : (s.setCode k).destLegal ↔ s.destLegal := .rfl

@[simp] theorem withSource_setCode (a n : Nat) (go : List Byte → Result) :
    withSource (s.setCode k) a n go = withSource s a n go := rfl

@[simp] theorem setRes_setCode (n : Nat) : (s.setCode k).setRes n = (s.setRes n).setCode k := rfl

@[simp] theorem memWrite_setCode (a : Nat) (bs : List Byte) :
    (s.setCode k).memWrite a bs = (s.memWrite a bs).setCode k := rfl

@[simp] theorem raise_setCode (e : Exn) : raise e (s.setCode k) = raise e s := by rw [raise, setCode_setCode, raise]

@[simp] theorem complete_setCode : complete (s.setCode k) = complete s := by rw [complete, setCode_setCode, complete]

theorem execRead56_setCode : execRead56 (s.setCode k) = execRead56 s := by simp [execRead56]

theorem execWrite56_setCode : execWrite56 (s.setCode k) = execWrite56 s := by simp [execWrite56]

variable (c : Codec)

theorem radixEncCommand_setCode : radixEncCommand c (s.setCode k) = radixEncCommand c s := by simp [radixEncCommand]

theorem radixDecCommand_setCode : radixDecCommand c (s.setCode k) = radixDecCommand c s := by simp [radixDecCommand]

theorem encodeCommand_setCode : encodeCommand c (s.setCode k) = encodeCommand c s := by simp [encodeCommand]

theorem decodeCommand_setCode : decodeCommand c (s.setCode k) = decodeCommand c s := by simp [decodeCommand]

theorem validateCommand_setCode : validateCommand c (s.setCode k) = validateCommand c s := by simp [validateCommand]

theorem symLenCommand_setCode : symLenCommand c (s.setCode k) = symLenCommand c s := by simp [symLenCommand]

theorem byteLenCommand_setCode : byteLenCommand c (s.setCode k) = byteLenCommand c s := by simp [byteLenCommand]

end

/-- Settles O22: each template answers the same from every code. -/
theorem statusNotSticky : Obligations.StatusNotSticky := by
  intro i s k
  cases i with
  | read56 => exact execRead56_setCode s k
  | write56 => exact execWrite56_setCode s k
  | radixencB10 | radixencB45 | radixencB94 => exact radixEncCommand_setCode s k _
  | radixdecB10 | radixdecB45 | radixdecB94 => exact radixDecCommand_setCode s k _
  | encodeB10 | encodeB45 | encodeB94 => exact encodeCommand_setCode s k _
  | decodeB10 | decodeB45 | decodeB94 => exact decodeCommand_setCode s k _
  | validateB10 | validateB45 | validateB94 => exact validateCommand_setCode s k _
  | symlenB10 | symlenB45 | symlenB94 => exact symLenCommand_setCode s k _
  | bytelenB10 | bytelenB45 | bytelenB94 => exact byteLenCommand_setCode s k _

end Sys2Proof.Machine
end

section
/-! Faults, and reset (70_reset_and_hazards.md R270, R271, R275). A command's checks only raise, and its read of the source
is the one place that can fault; so each template faults exactly where its checks pass and the block read fails. The end of
a command whose source is written follows, since no command is refused. -/

namespace Sys2Proof.Machine

/-! ## Reading an unwritten byte -/

/-- A block read fails exactly where it covers an unwritten byte. -/
theorem exists_readBytes_error_iff (m : Memory) (a n : Nat) :
    (∃ x, m.readBytes a n = .error x) ↔ ∃ x, a ≤ x ∧ x < a + n ∧ m.read x = none := by
  constructor
  · rintro ⟨x, hx⟩
    exact ⟨x, readBytes_error hx⟩
  · rintro ⟨x, hlo, hhi, hnone⟩
    cases hr : m.readBytes a n with
    | error y => exact ⟨y, rfl⟩
    | ok bs =>
      obtain ⟨hlen, hread⟩ := (readBytes_ok_iff m a n bs).mp hr
      have hplace := hread (x - a) (by omega)
      rw [Nat.add_sub_cancel' hlo, hnone, eq_comm, List.getElem?_eq_none_iff] at hplace
      omega

/-- Where going on cannot fault, the read of the source faults exactly when the block read fails, and names its address. -/
theorem withSource_eq_fault_iff {s : State} {a n x : Nat} {go : List Byte → Result}
    (hgo : ∀ bs f, go bs ≠ .fault f) :
    withSource s a n go = .fault (.unwrittenByte x) ↔ s.mem.readBytes a n = .error x := by
  rcases withSource_cases s a n go with ⟨y, hread, hy⟩ | ⟨bs, hread, hbs⟩
  · simp [hread, hy]
  · simp [hread, hbs, hgo bs]

/-- A check that raises where it fails faults exactly where it passes and what follows it faults. -/
theorem check_eq_fault_iff {p : Prop} [Decidable p] {e : Exn} {s : State} {next : Result} {f : Fault} :
    (if p then raise e s else next) = .fault f ↔ ¬p ∧ next = .fault f := by
  split <;> simp [*]

/-- A check that raises where it fails faults only where what follows it does. -/
theorem check_ne_fault {p : Prop} [Decidable p] {e : Exn} {s : State} {next : Result} {f : Fault}
    (h : next ≠ .fault f) : (if p then raise e s else next) ≠ .fault f :=
  fun hf => h (check_eq_fault_iff.mp hf).2

/-! ## The templates that read MEM -/

section
variable (c : Codec) (s : State) (x : Nat)

theorem execRead56_eq_fault_iff : execRead56 s = .fault (.unwrittenByte x) ↔
    (s.sourceLegal ∧ s.offN + 7 ≤ s.lenN) ∧ s.mem.readBytes (s.srcN + s.offN) 7 = .error x := by
  rw [execRead56, check_eq_fault_iff, check_eq_fault_iff, not_not, Nat.not_lt, and_assoc,
    withSource_eq_fault_iff fun _ => complete_ne_fault _]

theorem radixDecCommand_eq_fault_iff : radixDecCommand c s = .fault (.unwrittenByte x) ↔
    (s.sourceLegal ∧ s.lenN ≤ c.groupSymbols) ∧ s.mem.readBytes s.srcN s.lenN = .error x := by
  rw [radixDecCommand, check_eq_fault_iff, check_eq_fault_iff, not_not, Nat.not_lt, and_assoc,
    withSource_eq_fault_iff fun syms => ?_]
  cases parse c syms with
  | none => exact raise_ne_fault _ s
  | some v => exact complete_ne_fault _

theorem encodeCommand_eq_fault_iff : encodeCommand c s = .fault (.unwrittenByte x) ↔
    (s.sourceLegal ∧ s.destLegal ∧ symLen c s.lenN ≤ s.capN) ∧ s.mem.readBytes s.srcN s.lenN = .error x := by
  rw [encodeCommand, check_eq_fault_iff, check_eq_fault_iff, check_eq_fault_iff, not_not, not_not, Nat.not_lt, and_assoc,
    and_assoc, withSource_eq_fault_iff fun _ => complete_ne_fault _]

theorem decodeCommand_eq_fault_iff : decodeCommand c s = .fault (.unwrittenByte x) ↔
    (s.sourceLegal ∧ s.destLegal) ∧ s.mem.readBytes s.srcN s.lenN = .error x := by
  rw [decodeCommand, check_eq_fault_iff, check_eq_fault_iff, not_not, not_not, and_assoc,
    withSource_eq_fault_iff fun text => ?_]
  intro f
  split
  · exact check_ne_fault <| complete_ne_fault _ f
  · exact raise_ne_fault _ s f

theorem validateCommand_eq_fault_iff : validateCommand c s = .fault (.unwrittenByte x) ↔
    s.sourceLegal ∧ s.mem.readBytes s.srcN s.lenN = .error x := by
  rw [validateCommand, check_eq_fault_iff, not_not, withSource_eq_fault_iff fun _ => complete_ne_fault _]

end

/-! ## The templates that read no MEM -/

section
variable (c : Codec) (s : State) (f : Fault)

theorem execWrite56_ne_fault : execWrite56 s ≠ .fault f :=
  check_ne_fault <| check_ne_fault <| check_ne_fault <| complete_ne_fault _ f

theorem radixEncCommand_ne_fault : radixEncCommand c s ≠ .fault f :=
  check_ne_fault <| check_ne_fault <| check_ne_fault <| check_ne_fault <| complete_ne_fault _ f

theorem symLenCommand_ne_fault : symLenCommand c s ≠ .fault f := complete_ne_fault _ f

theorem byteLenCommand_ne_fault : byteLenCommand c s ≠ .fault f := by
  unfold byteLenCommand
  split
  · exact raise_ne_fault _ s f
  · exact complete_ne_fault _ f

end

/-! ## All commands -/

/-- A command faults exactly when its checks before MemRead pass and the read of its source fails. -/
theorem exec_eq_fault_iff (i : Instr) (s : State) (x : Nat) : exec i s = .fault (.unwrittenByte x) ↔
    reachesMemRead i s ∧ s.mem.readBytes (sourceRange i s).1 (sourceRange i s).2 = .error x := by
  cases i with
  | read56 => exact execRead56_eq_fault_iff s x
  | radixdecB10 | radixdecB45 | radixdecB94 => exact radixDecCommand_eq_fault_iff _ s x
  | encodeB10 | encodeB45 | encodeB94 => exact encodeCommand_eq_fault_iff _ s x
  | decodeB10 | decodeB45 | decodeB94 => exact decodeCommand_eq_fault_iff _ s x
  | validateB10 | validateB45 | validateB94 => exact validateCommand_eq_fault_iff _ s x
  | write56 => exact iff_of_false (execWrite56_ne_fault s _) fun h => h.1
  | radixencB10 | radixencB45 | radixencB94 => exact iff_of_false (radixEncCommand_ne_fault _ s _) fun h => h.1
  | symlenB10 | symlenB45 | symlenB94 => exact iff_of_false (symLenCommand_ne_fault _ s _) fun h => h.1
  | bytelenB10 | bytelenB45 | bytelenB94 => exact iff_of_false (byteLenCommand_ne_fault _ s _) fun h => h.1

/-- A fault of a command names an unwritten byte of its source. -/
theorem unwritten_of_exec_fault {i : Instr} {s : State} {f : Fault} (h : exec i s = .fault f) :
    ∃ a, f = .unwrittenByte a ∧ s.mem.read a = none ∧ (sourceRange i s).1 ≤ a ∧
      a < (sourceRange i s).1 + (sourceRange i s).2 := by
  obtain ⟨x⟩ := f
  obtain ⟨-, hread⟩ := (exec_eq_fault_iff i s x).mp h
  obtain ⟨hlo, hhi, hnone⟩ := readBytes_error hread
  exact ⟨x, rfl, hnone, hlo, hhi⟩

theorem exists_exec_fault_iff (i : Instr) (s : State) : (∃ f, exec i s = .fault f) ↔
    reachesMemRead i s ∧ ∃ x, s.mem.readBytes (sourceRange i s).1 (sourceRange i s).2 = .error x := by
  rw [← exists_and_left]
  simp only [← exec_eq_fault_iff]
  exact ⟨fun ⟨⟨x⟩, h⟩ => ⟨x, h⟩, fun ⟨x, h⟩ => ⟨_, h⟩⟩

/-- Settles O24: only the read of the source faults, and it fails exactly on an unwritten byte; refusals are of host
accesses. -/
theorem commandFaultsOnlyOnUnwrittenSource : Obligations.CommandFaultsOnlyOnUnwrittenSource := by
  refine fun i s => ⟨?_, fun f => unwritten_of_exec_fault, exec_ne_refused i s⟩
  rw [exists_exec_fault_iff, exists_readBytes_error_iff]

/-- Settles O25: a command is never refused, and a fault would name an unwritten byte of the source. -/
theorem commandEndsWhenSourceWritten : Obligations.CommandEndsWhenSourceWritten := by
  intro i s hwritten
  cases h : exec i s with
  | next t => exact ⟨t, rfl⟩
  | fault f =>
    obtain ⟨a, -, hnone, hlo, hhi⟩ := unwritten_of_exec_fault h
    exact absurd hnone (hwritten a hlo hhi)
  | refused r => exact absurd h (exec_ne_refused i s r)

/-! ## The host's read of an unwritten byte -/

/-- Settles O10: the read records the free value and counts it, in the host's side alone. -/
theorem hostReadOfUnwrittenByteCompletes : Obligations.HostReadOfUnwrittenByteCompletes :=
  fun s _ ha hnone =>
    ⟨Config.freeByte s.host.freeReads, s.recordFree, hostOp_readMem_unwritten ha hnone, rfl, rfl, rfl⟩

/-! ## Reset -/

theorem readReg_resetWith (n : Nat) (host : HostSide) {r : Nat} (h : r ≤ 8) :
    (State.resetWith n host).readReg r = some 0 := by
  interval_cases r <;> rfl

theorem read_resetWith (n : Nat) (host : HostSide) (a : Nat) : (State.resetWith n host).mem.read a = none := rfl

/-- Settles O12: a reset answers the block with every register 0 and an empty MEM, and State.reset is such a block. -/
theorem resetClearsBlock : Obligations.ResetClearsBlock :=
  ⟨fun s => ⟨_, hostOp_reset s, fun _ => readReg_resetWith s.memSize s.host, rfl, read_resetWith s.memSize s.host⟩,
    fun _ => readReg_resetWith Config.memSize HostSide.start, rfl, read_resetWith Config.memSize HostSide.start⟩

/-- Settles O18: the block after reset meets the invariant for every MEM_SIZE of the range, 4096 among them. -/
theorem resetMeetsStateWf : Obligations.ResetMeetsStateWf :=
  ⟨fun _ host hpos hmax => resetWith_wf hpos hmax host, reset_wf⟩

end Sys2Proof.Machine
end
